-- ==== Sys2Proof/Word.lean ====
section
/-! DEFINITION. The word types of the block: the 32-bit command and response word (R63, R67), the byte that carries
a quarter of it (R48), and the 8-bit two's-complement chip sample (R26, R80). -/

namespace Sys2Proof

/-- A command word `cmd[31:0]` or a response word `rdata[31:0]` (R63, R67). -/
abbrev Word := BitVec 32

/-- One byte, where a word is carried as four bytes (R48). -/
abbrev Byte := BitVec 8

/-- One captured sample: 8 bits, two's complement, −128..127 (R26, R80). -/
abbrev Sample := BitVec 8

end Sys2Proof
end

