-- ==== Sys2Proof/Syntax.lean ====
section
/-! DEFINITION. The sixteen commands of R69, one constructor per row of spec/opcode_table.json, each operand at the
width of its field (R68, R71). -/

namespace Sys2Proof

/-- A decoded command. -/
inductive Instr where
  /-- 0x00, format Z (R146). -/
  | nop
  /-- 0x01, format R: register number r = cmd[3:0] (R148). -/
  | rdreg (r : BitVec 4)
  /-- 0x10, format T: t1 = cmd[7:4], t2 = cmd[3:0] (R94). -/
  | settap (t1 t2 : BitVec 4)
  /-- 0x11, format K: satellite index k = cmd[4:0] (R95). -/
  | selsat (k : BitVec 5)
  /-- 0x12, format Z (R97). -/
  | ginit
  /-- 0x13, format Z (R98). -/
  | gstep
  /-- 0x14, format Z (R99). -/
  | gen
  /-- 0x15, format P: enc = cmd[11:10], i = cmd[9:0] (R100). -/
  | rdprn (enc : BitVec 2) (i : BitVec 10)
  /-- 0x20, format Z (R110). -/
  | clrchip
  /-- 0x21, format B: the signed sample v = cmd[7:0] (R111). -/
  | ldchip (v : Sample)
  /-- 0x22, format X: i = cmd[9:0] (R112). -/
  | rdchip (i : BitVec 10)
  /-- 0x23, format H: the unsigned threshold v = cmd[16:0] (R113). -/
  | setthr (v : BitVec 17)
  /-- 0x24, format X: the offset o = cmd[9:0] (R120). -/
  | csum (o : BitVec 10)
  /-- 0x25, format Z (R122). -/
  | corr
  /-- 0x30, format Z (R140). -/
  | scan
  /-- 0x31, format K: satellite index k = cmd[4:0] (R143). -/
  | rdsat (k : BitVec 5)
deriving DecidableEq, Repr

/-- The opcode byte OPC of a command (R69). -/
def Instr.opcode : Instr → BitVec 8
  | .nop => 0x00
  | .rdreg _ => 0x01
  | .settap _ _ => 0x10
  | .selsat _ => 0x11
  | .ginit => 0x12
  | .gstep => 0x13
  | .gen => 0x14
  | .rdprn _ _ => 0x15
  | .clrchip => 0x20
  | .ldchip _ => 0x21
  | .rdchip _ => 0x22
  | .setthr _ => 0x23
  | .csum _ => 0x24
  | .corr => 0x25
  | .scan => 0x30
  | .rdsat _ => 0x31

end Sys2Proof
end

