-- ==== Sys2Proof/WellFormed.lean ====
section
/-! DEFINITION. Which decoded commands have operands that name something the block has, whatever its state and its
table: the operand checks of R76 and R154 that read no state. A command that fails its check still decodes and still
runs: it takes the fault R154 names for it (log 9). -/

namespace Sys2Proof

/-- A tap index: 1..10; 0 and 11 to 15 are not tap indices (R78). -/
def isTapIndex (t : BitVec 4) : Bool := 1 ≤ t.toNat && t.toNat ≤ 10

/-- A register number RDREG knows: 0..10 (R35). -/
def isRegisterNumber (r : BitVec 4) : Bool := r.toNat ≤ 10

/-- An encoding RDPRN knows: plain 0, mask 1, bipolar 2; 3 is reserved (R83). -/
def isPrnEncoding (enc : BitVec 2) : Bool := enc.toNat ≤ 2

/-- An element index of PRN or CHIP, or an offset: 0..1022 (R45, R53). -/
def isElementIndex (i : BitVec 10) : Bool := i.toNat ≤ 1022

/-- The operands pass every check of R154 that reads no state. A satellite index is checked against NSAT, which a
configuration fixes, so every 5-bit k passes here (R95: with NSAT = 32 no k can fault). -/
def Instr.wellFormed : Instr → Bool
  | .nop => true
  | .rdreg r => isRegisterNumber r
  | .settap t1 t2 => isTapIndex t1 && isTapIndex t2
  | .selsat _ => true
  | .ginit => true
  | .gstep => true
  | .gen => true
  | .rdprn enc i => isPrnEncoding enc && isElementIndex i
  | .clrchip => true
  | .ldchip _ => true
  | .rdchip i => isElementIndex i
  | .setthr _ => true
  | .csum o => isElementIndex o
  | .corr => true
  | .scan => true
  | .rdsat _ => true

end Sys2Proof
end

