-- ==== Sys2Proof/Decode.lean ====
section
/-! DEFINITION. The decoder of R67 to R72, total on every word and on every list of bytes, rejecting by name, and the
encoder written from the same formats. -/

namespace Sys2Proof

/-- Why a word, or a run of bytes, is no command. -/
inductive DecodeError where
  /-- OPC is none of the sixteen of R69 (R72 (a)). -/
  | unknownOpcode
  /-- OPC is one of the sixteen, but a reserved operand bit is 1 (R72 (b)). -/
  | reservedBit
  /-- The bytes are not the four of one command word (R67: there is one length). -/
  | notFourBytes
deriving DecidableEq, Repr

/-- One row of the opcode map: the fixed bits, which bits are fixed, and how the operands are cut out (R68, R69). -/
structure OpcodeRow where
  pattern : Word
  mask    : Word
  build   : Word → Instr

/-- The word selects the row: `w & mask = match` (R69). -/
def OpcodeRow.selects (row : OpcodeRow) (w : Word) : Bool := w &&& row.mask == row.pattern

/-- Rows 0x00 to 0x15 of R69: housekeeping and the generator. -/
def generatorRows : List OpcodeRow :=
  [⟨0x00000000, 0xFFFFFFFF, fun _ => .nop⟩,
   ⟨0x01000000, 0xFFFFFFF0, fun w => .rdreg (w.extractLsb' 0 4)⟩,
   ⟨0x10000000, 0xFFFFFF00, fun w => .settap (w.extractLsb' 4 4) (w.extractLsb' 0 4)⟩,
   ⟨0x11000000, 0xFFFFFFE0, fun w => .selsat (w.extractLsb' 0 5)⟩,
   ⟨0x12000000, 0xFFFFFFFF, fun _ => .ginit⟩,
   ⟨0x13000000, 0xFFFFFFFF, fun _ => .gstep⟩,
   ⟨0x14000000, 0xFFFFFFFF, fun _ => .gen⟩,
   ⟨0x15000000, 0xFFFFF000, fun w => .rdprn (w.extractLsb' 10 2) (w.extractLsb' 0 10)⟩]

/-- Rows 0x20 to 0x31 of R69: the correlator and the scanner. -/
def correlatorRows : List OpcodeRow :=
  [⟨0x20000000, 0xFFFFFFFF, fun _ => .clrchip⟩,
   ⟨0x21000000, 0xFFFFFF00, fun w => .ldchip (w.extractLsb' 0 8)⟩,
   ⟨0x22000000, 0xFFFFFC00, fun w => .rdchip (w.extractLsb' 0 10)⟩,
   ⟨0x23000000, 0xFFFE0000, fun w => .setthr (w.extractLsb' 0 17)⟩,
   ⟨0x24000000, 0xFFFFFC00, fun w => .csum (w.extractLsb' 0 10)⟩,
   ⟨0x25000000, 0xFFFFFFFF, fun _ => .corr⟩,
   ⟨0x30000000, 0xFFFFFFFF, fun _ => .scan⟩,
   ⟨0x31000000, 0xFFFFFFE0, fun w => .rdsat (w.extractLsb' 0 5)⟩]

/-- The opcode map of R69, all sixteen rows. -/
def opcodeRows : List OpcodeRow := generatorRows ++ correlatorRows

/-- Decoding (R70): the row the word selects, its operands cut out by the row's format; a word that selects no row is
rejected, by the name of R72's case. -/
def decode (w : Word) : Except DecodeError Instr :=
  match opcodeRows.find? (fun row => row.selects w) with
  | some row => .ok (row.build w)
  | none =>
    if opcodeRows.any (fun row => row.pattern.extractLsb' 24 8 == w.extractLsb' 24 8) then
      .error .reservedBit
    else
      .error .unknownOpcode

/-- Four bytes as a word, least-significant byte first (R48). -/
def wordOfBytes (b0 b1 b2 b3 : Byte) : Word := b3 ++ b2 ++ b1 ++ b0

/-- Byte number n (0 the least significant) of a word (R48). -/
def byteOfWord (w : Word) (n : Nat) : Byte := w.extractLsb' (8 * n) 8

/-- A word as it is carried in four bytes, least-significant byte first (R48). -/
def bytesOfWord (w : Word) : List Byte :=
  [byteOfWord w 0, byteOfWord w 1, byteOfWord w 2, byteOfWord w 3]

/-- Decoding a command carried as bytes: exactly four of them are one word (R48, R67). -/
def decodeBytes : List Byte → Except DecodeError Instr
  | [b0, b1, b2, b3] => decode (wordOfBytes b0 b1 b2 b3)
  | _ => .error .notFourBytes

/-- The word of a command, written from the formats of R68 and the opcodes of R69. -/
def encode : Instr → Word
  | .nop => 0x00#8 ++ 0#24
  | .rdreg r => 0x01#8 ++ 0#20 ++ r
  | .settap t1 t2 => 0x10#8 ++ 0#16 ++ t1 ++ t2
  | .selsat k => 0x11#8 ++ 0#19 ++ k
  | .ginit => 0x12#8 ++ 0#24
  | .gstep => 0x13#8 ++ 0#24
  | .gen => 0x14#8 ++ 0#24
  | .rdprn enc i => 0x15#8 ++ 0#12 ++ enc ++ i
  | .clrchip => 0x20#8 ++ 0#24
  | .ldchip v => 0x21#8 ++ 0#16 ++ v
  | .rdchip i => 0x22#8 ++ 0#14 ++ i
  | .setthr v => 0x23#8 ++ 0#7 ++ v
  | .csum o => 0x24#8 ++ 0#14 ++ o
  | .corr => 0x25#8 ++ 0#24
  | .scan => 0x30#8 ++ 0#24
  | .rdsat k => 0x31#8 ++ 0#19 ++ k

/-- The table's word `w` of `nbits` bits, bits above it zero: the whole command word (every row has 32 bits). -/
def tableWord (nbits w : Nat) : Word := BitVec.ofNat 32 (w % 2 ^ nbits)

/-- What the decoder reads from the table's word, laid out as its four bytes (log 14). -/
def decodeTableWord (nbits w : Nat) : Option Instr :=
  match decodeBytes (bytesOfWord (tableWord nbits w)) with
  | .ok i => some i
  | .error _ => none

end Sys2Proof
end

