-- ==== Sys2Proof/Config.lean ====
section
/-! DEFINITION. What is fixed for the machine: the constants of R7, the parameters of R8, and the default tap table
of R33. The table the machine runs on is a constant field of its state (log 5); this file gives its default. -/

namespace Sys2Proof

/-- One TapConfiguration (tap1, tap2); each tap is 4 bits wide (R20, R78). -/
structure TapPair where
  tap1 : BitVec 4
  tap2 : BitVec 4
deriving DecidableEq, Repr

/-- TAPTABLE: NSAT ≥ 1 pairs in satellite order, entry 0 apart because reset reads it (R33, R34, R40). -/
structure TapTable where
  first : TapPair
  rest  : List TapPair
deriving DecidableEq, Repr

/-- The pairs of the table in the order of the satellite index k = 0, 1, … (R46). -/
def TapTable.toList (t : TapTable) : List TapPair := t.first :: t.rest

/-- NSAT, the length of TAPTABLE (R8). -/
def TapTable.nsat (t : TapTable) : Nat := t.toList.length

/-- How a sum is evaluated (R8 STRATEGY, R128): term by term, or in lanes of width `vw` (R129 to R131). -/
inductive Strategy where
  | scalar
  | vectorized (vw : Nat)
deriving DecidableEq, Repr

/-- The vector widths R129 allows: a power of two, 1 ≤ VW ≤ 1024 (R8). -/
def Config.vectorWidths : List Nat := [1, 2, 4, 8, 16, 32, 64, 128, 256, 512, 1024]

/-- N = 1023: chips per code period, length of every sequence, offsets, terms per sum (R7). -/
def Config.period : Nat := 1023

/-- INIT = 0x3FF: both LFSRs' start value (R7, R18, R19). -/
def Config.lfsrInit : BitVec 10 := 0x3FF#10

/-- THRESH_DEFAULT = 200 (R7, R27). -/
def Config.threshDefault : BitVec 17 := 200#17

/-- The largest NSAT a configuration may have (R8, R34). -/
def Config.nsatMax : Nat := 32

/-- The strategy the machine runs: the scalar sum, which R128 lets a model choose; no response or register tells the
two apart (R132). DESIGN CHOICE, log 10. -/
def Config.strategy : Strategy := .scalar

/-- The default TAPTABLE of R33, 24 pairs. Entry 0 is the source's; entries 1 to 23 are marked by the spec
"from general knowledge, not in source" (log 5). -/
def Config.defaultTapTable : TapTable where
  first := ⟨2, 6⟩
  rest := [⟨3, 7⟩, ⟨4, 8⟩, ⟨5, 9⟩, ⟨1, 9⟩, ⟨2, 10⟩, ⟨1, 8⟩, ⟨2, 9⟩] ++
    [⟨3, 10⟩, ⟨2, 3⟩, ⟨3, 4⟩, ⟨5, 6⟩, ⟨6, 7⟩, ⟨7, 8⟩, ⟨8, 9⟩, ⟨9, 10⟩] ++
    [⟨1, 4⟩, ⟨2, 5⟩, ⟨3, 6⟩, ⟨4, 7⟩, ⟨5, 8⟩, ⟨6, 9⟩, ⟨1, 3⟩, ⟨4, 6⟩]

/-- Free value: the fault bit of the n-th response, where reset came during the command and R170 says nothing of its
response (spec/93 item 14; log 16). -/
opaque Config.interruptedFault : Nat → Bool

/-- Free value: the rdata of that response (log 16). -/
opaque Config.interruptedData : Nat → Word

end Sys2Proof
end

