-- ==== Sys2Proof/Machine/State.lean ====
section
/-! DEFINITION. The block's own state (R15), as plain data; the block together with the host's end of its command port,
which is what a step of the model acts on (R41, R63, R66; log 1, log 2); the reasons the model stops; and the state after
reset (R40). -/

namespace Sys2Proof.Machine

/-- An element-indexed memory (R44): the elements that are listed, by rising index. What an index that is not listed
reads as is said where the memory is used: no value in PRN and CHIP (R23, R26), the zero entry in RESULTS (R31). -/
abbrev Memory (α : Type) := List (Nat × α)

/-- The canonical form: indices strictly rising. -/
abbrev Memory.wf {α : Type} (m : Memory α) : Prop := (m.map Prod.fst).Pairwise (· < ·)

/-- The canonical form of a memory whose unlisted elements read as `d`: rising, and no element listed as `d`. -/
abbrev Memory.wfOver {α : Type} [DecidableEq α] (d : α) (m : Memory α) : Prop :=
  Memory.wf m ∧ ∀ e ∈ m, e.2 ≠ d

/-- A DetectionResult as the fields the block holds: DET, BIT, OFFSET (R30, R85). -/
structure Detection where
  det    : Bool
  bit    : Bool
  offset : BitVec 10
deriving DecidableEq, Repr

/-- "No detection", and the cleared value of RESULT and of a RESULTS entry: DET = 0, BIT = 0, OFFSET = 0 (R30, R31). -/
def Detection.absent : Detection := ⟨false, false, 0#10⟩

/-- The response to one command: an output of the transition, no state of the block (R41, R65). -/
structure Response where
  fault : Bool
  rdata : Word
deriving DecidableEq, Repr

/-- What the host does next at the port (R63, R170). -/
inductive HostEvent where
  /-- It gives a command word to the idle block. -/
  | command (w : Word)
  /-- It asserts reset while the block is idle. -/
  | reset
  /-- It gives a command and asserts reset while the command executes, which R170 asks it not to do. -/
  | resetDuringCommand
deriving DecidableEq, Repr

/-- The whole state of the block: the components of R15, field by field, and nothing else. -/
structure Block where
  /-- G1, 10 bits (R18). -/
  g1 : BitVec 10
  /-- G2, 10 bits (R19). -/
  g2 : BitVec 10
  /-- TAP1, 4 bits (R20). -/
  tap1 : BitVec 4
  /-- TAP2, 4 bits (R20). -/
  tap2 : BitVec 4
  /-- SAT, 5 bits (R21). -/
  sat : BitVec 5
  /-- GCNT, 10 bits (R22). -/
  gcnt : BitVec 10
  /-- PRN, 1023 × 1 bit; an element that is not listed has no value (R23). -/
  prn : Memory Bool
  /-- CHIPCNT, 10 bits (R25). -/
  chipcnt : BitVec 10
  /-- CHIP, 1023 × 8 bits; an element that is not listed has no value (R26). -/
  chip : List Host.Cell
  /-- THRESH, 17 bits unsigned (R27). -/
  thresh : BitVec 17
  /-- ACC, 18 bits two's complement (R28). -/
  acc : BitVec 18
  /-- OFS, 10 bits (R29). -/
  ofs : BitVec 10
  /-- RESULT: DET, BIT, OFFSET (R30). -/
  result : Detection
  /-- RDONE (R30). -/
  rdone : Bool
  /-- RESULTS, NSAT entries; an entry that is not listed is 0 (R31). -/
  results : Memory Detection
  /-- SDONE (R31). -/
  sdone : Bool
  /-- ERR, sticky (R36, R155). -/
  err : Bool
  /-- CAUSE, 4 bits (R36, R152). -/
  cause : BitVec 4
  /-- TAPTABLE, a constant: no command and no reset writes it (R15, R34). -/
  tapTable : TapTable
deriving DecidableEq, Repr

/-- What a step acts on: the block, and beside it the host's end of the port, which is no state of the block (R41): the
command sequence the host holds, and the host's record of the responses it was given (R66). No command reads either
field. -/
structure State extends block : Block where
  /-- The host's command sequence: what it will do next, first event first (R41, R55, R170; log 1). -/
  inputs : List HostEvent
  /-- The host's record of the responses given so far, oldest first (R65, R66; log 2). -/
  responses : List Response
deriving DecidableEq, Repr

/-- Why the model stops with a fault. Each is raised only in a state that breaks R23, R20 or R34, which no run reaches;
each is SAFE: the model stops where the spec gives a state of that kind no meaning. The block's own faults (R152) are
none of these: they are next states (R153). -/
inductive Fault where
  /-- RDPRN, RDCHIP, CSUM, CORR, SCAN: an element the counters call written has no value (R23, R26). Safe. -/
  | noValue
  /-- GSTEP, GEN, SCAN: TAP1 or TAP2 is outside 1..10 and names no bit of G2 (R20, R90). Safe. -/
  | illegalTap
  /-- SCAN: TAPTABLE breaks a constraint of R34, so it is not a configuration of this hardware. Safe. -/
  | notAConfiguration
deriving DecidableEq, Repr

/-- Why the model refuses. -/
inductive Refusal where
  /-- exec, for an instruction that has no meaning yet. Safe. No arm answers it now. -/
  | notModelled (mnemonic : String)
deriving DecidableEq, Repr

/-- The state after reset of a block configured with the table `t` (R40). -/
def Block.resetWith (t : TapTable) : Block where
  g1 := Config.lfsrInit
  g2 := Config.lfsrInit
  tap1 := t.first.tap1
  tap2 := t.first.tap2
  sat := 0
  gcnt := 0
  prn := []
  chipcnt := 0
  chip := []
  thresh := Config.threshDefault
  acc := 0
  ofs := 0
  result := Detection.absent
  rdone := false
  results := []
  sdone := false
  err := false
  cause := 0
  tapTable := t

/-- The block after reset, configured with the table `t`; the host has queued nothing and been given nothing. -/
def State.resetWith (t : TapTable) : State where
  block := Block.resetWith t
  inputs := []
  responses := []

/-- The machine right after reset, with the default table (R33, R40). -/
def State.reset : State := State.resetWith Config.defaultTapTable

end Sys2Proof.Machine
end

