-- ==== Sys2Proof/Machine/Operands.lean ====
section
/-! DEFINITION. What an operand or an element stands for: legal taps, the three views of a PRN bit, the sign of a bit,
and the registers RDREG reads. -/

namespace Sys2Proof.Machine

/-- A tap index names a bit of G2: it is in 1..10 (R20, R78, R90). -/
def tapLegal (t : BitVec 4) : Bool := 1 ≤ t.toNat && t.toNat ≤ 10

/-- Both taps of a pair are legal (R34, R94). -/
def pairLegal (p : TapPair) : Bool := tapLegal p.tap1 && tapLegal p.tap2

/-- The table is a configuration of this hardware: NSAT ≤ 32 and every tap in 1..10; NSAT ≥ 1 by its type (R34, D16). R8
adds "entry 0 is (2,6)", which R34 and D16 do not: DESIGN CHOICE (log 21), a table with another legal entry 0 is a
configuration too. -/
def tableLegal (t : TapTable) : Bool := t.nsat ≤ Config.nsatMax && t.toList.all pairLegal

/-- The current TapConfiguration is legal (R20). -/
def tapsLegal (s : Block) : Bool := tapLegal s.tap1 && tapLegal s.tap2

/-- sign: +1 for a bit 1, −1 for a bit 0 (R13, R118). -/
def signOf (b : Bool) : Int := if b then 1 else -1

/-- mask: 0xFF for a bit 1, 0x00 for a bit 0 (R13, R83). -/
def maskOf (b : Bool) : BitVec 8 := if b then 0xFF#8 else 0x00#8

/-- A bit zero-extended to a word (R11). -/
def bitWord (b : Bool) : Word := (BitVec.ofBool b).setWidth 32

/-- The bipolar view: +1 or −1 in 32 bits (R83). -/
def bipolarWord (b : Bool) : Word := if b then 0x00000001#32 else 0xFFFFFFFF#32

/-- RDPRN's answer for a bit in the encoding `enc` (R83); `enc` = 3 is refused before this is asked (R100). -/
def prnView (enc : BitVec 2) (b : Bool) : Word :=
  match enc.toNat with
  | 0 => bitWord b
  | 1 => (maskOf b).setWidth 32
  | _ => bipolarWord b

end Sys2Proof.Machine
end

