-- ==== Sys2Proof/Machine/Code.lean ====
section
/-! DEFINITION. The generator's datapath as functions: the combiner (R91), the two shifts (R92, R93), and the source's
contract generate (R96). -/

namespace Sys2Proof.Machine

/-- The bit of G2 that a tap t names: bit 10 − t (R90). -/
def tapBit (g2 : BitVec 10) (t : BitVec 4) : Bool := g2.getLsbD (10 - t.toNat)

/-- The combiner: G1[0] ^ G2[10 − t1] ^ G2[10 − t2] (R91). -/
def combine (g1 g2 : BitVec 10) (t1 t2 : BitVec 4) : Bool :=
  g1.getLsbD 0 ^^ tapBit g2 t1 ^^ tapBit g2 t2

/-- A shift right by one place with `f` inserted into bit 9: f :: g[9:1] (R92, R93). -/
def shiftIn (f : Bool) (g : BitVec 10) : BitVec 10 := BitVec.ofBool f ++ g.extractLsb' 1 9

/-- The G1 shift, feedback g[0] ^ g[7] (R92). -/
def next1 (g : BitVec 10) : BitVec 10 := shiftIn (g.getLsbD 0 ^^ g.getLsbD 7) g

/-- The G2 shift, feedback g[0] ^ g[1] ^ g[2] ^ g[4] ^ g[7] ^ g[8] (R93). -/
def next2 (g : BitVec 10) : BitVec 10 :=
  shiftIn (g.getLsbD 0 ^^ g.getLsbD 1 ^^ g.getLsbD 2 ^^ g.getLsbD 4 ^^ g.getLsbD 7 ^^ g.getLsbD 8) g

/-- The first n bits from the registers (g1, g2): emit from the present registers, then advance both (R96). -/
def generateFrom (t1 t2 : BitVec 4) : Nat → BitVec 10 → BitVec 10 → List Bool
  | 0, _, _ => []
  | n + 1, g1, g2 => combine g1 g2 t1 t2 :: generateFrom t1 t2 n (next1 g1) (next2 g2)

/-- generate(t1, t2): 1023 bits from (0x3FF, 0x3FF) (R96). -/
def generate (t1 t2 : BitVec 4) : List Bool :=
  generateFrom t1 t2 Config.period Config.lfsrInit Config.lfsrInit

/-- A register after n shifts. -/
def shiftTimes (next : BitVec 10 → BitVec 10) : Nat → BitVec 10 → BitVec 10
  | 0, g => g
  | n + 1, g => shiftTimes next n (next g)

end Sys2Proof.Machine
end

