-- ==== Sys2Proof/Machine/Correlate.lean ====
section
/-! DEFINITION. The correlator's functions on a chip sequence c and a PRN sequence p: the scalar sum (R119), the
vectorized sum (R129 to R131), the ascending first-match search (R121, R122), and the contracts correlate and scan.
Everything is on mathematical integers (R11, R114). -/

namespace Sys2Proof.Machine

/-- The sum of the products sample · sign(bit), term by term (R119, R128 scalar). -/
def dotSigns : List Sample → List Bool → Int
  | v :: c, b :: p => v.toInt * signOf b + dotSigns c p
  | _, _ => 0

/-- The chip sequence read from offset o on, circularly: index o + i while that is in range, then o + i − 1023 (R47). -/
def rotateChips (o : Nat) (c : List Sample) : List Sample := c.drop o ++ c.take o

/-- sum(c, p, o): the chip index is rotated, the PRN index is not (R119). -/
def scalarSum (c : List Sample) (p : List Bool) (o : Nat) : Int := dotSigns (rotateChips o c) p

/-- PLEN = VW · ⌈1023 / VW⌉ (R129). -/
def plen (vw : Nat) : Nat := vw * ((Config.period + vw - 1) / vw)

/-- XLEN = VW · ⌈2046 / VW⌉ (R129). -/
def xlen (vw : Nat) : Nat := vw * ((2 * Config.period + vw - 1) / vw)

/-- XCHIP: the chips twice, then zeros up to XLEN (R129). -/
def xchip (vw : Nat) (c : List Sample) : List Sample :=
  c ++ c ++ List.replicate (xlen vw - 2 * Config.period) 0#8

/-- XPRN: the mask of each bit, then zeros up to PLEN (R129). -/
def xprn (vw : Nat) (p : List Bool) : List (BitVec 8) :=
  p.map maskOf ++ List.replicate (plen vw - Config.period) 0#8

/-- The horizontal sum of the lanes of one group, each taken as a signed 8-bit value (R130). -/
def laneSum : List Sample → Int
  | [] => 0
  | v :: l => v.toInt + laneSum l

/-- The sum over `n` groups of `vw` consecutive lanes (R130). -/
def groupSums (vw : Nat) : Nat → List Sample → Int
  | 0, _ => 0
  | n + 1, l => laneSum (l.take vw) + groupSums vw n (l.drop vw)

/-- A(o), the AND-sum: lane i is XCHIP[o + i] & XPRN[i] (R130). -/
def andSum (vw : Nat) (c : List Sample) (p : List Bool) (o : Nat) : Int :=
  groupSums vw (plen vw / vw) (List.zipWith (· &&& ·) ((xchip vw c).drop o) (xprn vw p))

/-- The vectorized sum: 2 · A(o) − T with T the sum of all samples (R131). -/
def vectorSum (vw : Nat) (c : List Sample) (p : List Bool) (o : Nat) : Int := 2 * andSum vw c p o - laneSum c

/-- The sum at offset o as the strategy evaluates it (R128). -/
def sumBy : Strategy → List Sample → List Bool → Nat → Int
  | .scalar, c, p, o => scalarSum c p o
  | .vectorized vw, c, p, o => vectorSum vw c p o

/-- The magnitude test abs(s) > threshold, strict (R115). -/
def exceeds (s : Int) (th : Nat) : Bool := th < s.natAbs

/-- Where the offset loop ended: the last sum computed, its offset, and whether it crossed the threshold (R122). -/
structure Search where
  sum    : Int
  offset : Nat
  found  : Bool
deriving DecidableEq, Repr

/-- The offset loop from offset o on, with `n` more offsets after it: it stops at the first crossing or at the last
offset (R121, R122). -/
def searchFrom (sum : Nat → Int) (th : Nat) : Nat → Nat → Search
  | 0, o => ⟨sum o, o, exceeds (sum o) th⟩
  | n + 1, o => if exceeds (sum o) th then ⟨sum o, o, true⟩ else searchFrom sum th n (o + 1)

/-- The offset loop over 0..1022 (R122). -/
def search (sum : Nat → Int) (th : Nat) : Search := searchFrom sum th (Config.period - 1) 0

/-- The DetectionResult of a search: the offset, and bit 1 for a positive sum, 0 for a negative one (R116, R122). -/
def detectionOf (r : Search) : Detection :=
  if r.found then ⟨true, decide (0 < r.sum), BitVec.ofNat 10 r.offset⟩ else Detection.absent

/-- correlate(c, p, th) as the block encodes it (R85, R121). -/
def correlate (c : List Sample) (p : List Bool) (th : Nat) : Detection := detectionOf (search (scalarSum c p) th)

/-- The sums of a correlation under a strategy: offset to sum (R128). -/
def sumsBy (st : Strategy) (c : List Sample) (p : List Bool) : Nat → Int := fun o => sumBy st c p o

end Sys2Proof.Machine
end

