-- ==== Sys2Proof/Machine/Flags.lean ====
section
/-! DEFINITION. The flags and words computed from the state: CHIPFULL and PRNFULL (R36), the result word (R85), the
words TAP and STATUS, and the registers by number (R35). -/

namespace Sys2Proof.Machine

/-- CHIPFULL: CHIPCNT = 1023 (R36). -/
def chipFull (s : Block) : Bool := s.chipcnt.toNat == Config.period

/-- PRNFULL: GCNT = 1023 (R36). -/
def prnFull (s : Block) : Bool := s.gcnt.toNat == Config.period

/-- DONE :: DET :: BIT :: OFFSET, 13 bits (R85). -/
def resultWord (done : Bool) (d : Detection) : BitVec 13 :=
  BitVec.ofBool done ++ BitVec.ofBool d.det ++ BitVec.ofBool d.bit ++ d.offset

/-- The TAP register: TAP1 :: TAP2, 8 bits (R20). -/
def tapWord (s : Block) : BitVec 8 := s.tap1 ++ s.tap2

/-- The STATUS register: SDONE :: PRNFULL :: CHIPFULL :: CAUSE :: ERR, 8 bits (R36, R148). -/
def statusWord (s : Block) : BitVec 8 :=
  BitVec.ofBool s.sdone ++ BitVec.ofBool (prnFull s) ++ BitVec.ofBool (chipFull s) ++ s.cause ++ BitVec.ofBool s.err

/-- RDREG's answer for register number r: every register zero-extended but ACC, which is sign-extended; none for 11 to
15 (R35, R148). -/
def readRegister (r : BitVec 4) (s : Block) : Option Word :=
  match r.toNat with
  | 0 => some (s.g1.setWidth 32)
  | 1 => some (s.g2.setWidth 32)
  | 2 => some ((tapWord s).setWidth 32)
  | 3 => some (s.sat.setWidth 32)
  | 4 => some (s.gcnt.setWidth 32)
  | 5 => some (s.chipcnt.setWidth 32)
  | 6 => some (s.thresh.setWidth 32)
  | 7 => some (s.acc.signExtend 32)
  | 8 => some (s.ofs.setWidth 32)
  | 9 => some ((resultWord s.rdone s.result).setWidth 32)
  | 10 => some ((statusWord s).setWidth 32)
  | _ => none

end Sys2Proof.Machine
end

