-- ==== Sys2Proof/Machine/Ops.lean ====
section
/-! DEFINITION. The named operations over memory and the block's state: element access, the transition with its response
(R63, R65), taking a fault (R153), clearing results (R30, R31), starting and stepping the generator, correlating,
scanning, and reset; and how a transition of the block reaches the host (R66). -/

namespace Sys2Proof.Machine

/-- The step's outcome in the model's own types. -/
abbrev Outcome := Host.Outcome State Fault Refusal

/-- One transition of the block: its next state and, as an output, the response (R41, R63); or a stop of the model. -/
abbrev Transition := Except Fault (Block × Response)

/-- The element at index a, if it has a value (R44). -/
def Memory.read {α : Type} : Memory α → Nat → Option α
  | [], _ => none
  | (b, v) :: m, a => if a = b then some v else Memory.read m a

/-- The memory with the value v at index a; the list stays in rising order (R44). -/
def Memory.write {α : Type} : Memory α → Nat → α → Memory α
  | [], a, v => [(a, v)]
  | (b, u) :: m, a, v =>
    if a < b then (a, v) :: (b, u) :: m else if a = b then (a, v) :: m else (b, u) :: Memory.write m a v

/-- The memory with nothing listed at index a. -/
def Memory.erase {α : Type} (m : Memory α) (a : Nat) : Memory α := m.filter (fun e => e.1 != a)

/-- The element at index a of a memory whose unlisted elements read as d. -/
def Memory.readOver {α : Type} (d : α) (m : Memory α) (a : Nat) : α := (m.read a).getD d

/-- A write to a memory whose unlisted elements read as d: writing d removes the entry. -/
def Memory.writeOver {α : Type} [DecidableEq α] (d : α) (m : Memory α) (a : Nat) (v : α) : Memory α :=
  if v = d then m.erase a else m.write a v

/-- The elements 0..n − 1 in order, if exactly these have a value. -/
def Memory.sequence {α : Type} (m : Memory α) (n : Nat) : Option (List α) :=
  if m.map Prod.fst = List.range n then some (m.map Prod.snd) else none

/-- RESULTS[k]: an entry that is not listed is 0 (R31). -/
def resultEntry (s : Block) (k : Nat) : Detection := Memory.readOver Detection.absent s.results k

/-- The nine causes of R152. -/
inductive Cause where
  | illegal | register | tap | satellite | index | genOverrun | chipFull | chipShort | prnShort
deriving DecidableEq, Repr

/-- The cause code, 1..9 (R152). -/
def Cause.code : Cause → BitVec 4
  | .illegal => 1
  | .register => 2
  | .tap => 3
  | .satellite => 4
  | .index => 5
  | .genOverrun => 6
  | .chipFull => 7
  | .chipShort => 8
  | .prnShort => 9

/-- A command completes: fault = 0 and rdata (R65). -/
def complete (rdata : Word) (s : Block) : Transition := .ok (s, ⟨false, rdata⟩)

/-- The first cause since reset is recorded and sticks (R153 (2)). -/
def recordCause (c : Cause) (s : Block) : Block := if s.err then s else { s with err := true, cause := c.code }

/-- Taking a fault: record the cause, respond fault = 1 with the code, change nothing else (R153, R158). There is no
return from it: no handler and nothing to restore (R159). -/
def takeFault (c : Cause) (s : Block) : Transition := .ok (recordCause c s, ⟨true, c.code.setWidth 32⟩)

/-- The transition of a command whose work ended in a state, or in a stop of the model. -/
def finish (rdata : Block → Word) : Except Fault Block → Transition
  | .ok t => complete (rdata t) t
  | .error f => .error f

/-- RDONE and RESULT cleared (R30). -/
def clearResult (s : Block) : Block := { s with rdone := false, result := Detection.absent }

/-- RDONE, RESULT, SDONE and every RESULTS entry cleared (R30, R31). -/
def clearResults (s : Block) : Block := { clearResult s with sdone := false, results := [] }

/-- G1, G2 ← 0x3FF, GCNT ← 0, RDONE and RESULT cleared; with GCNT = 0 no PRN element has a value (R23, R97). -/
def startGenerator (s : Block) : Block :=
  { clearResult s with g1 := Config.lfsrInit, g2 := Config.lfsrInit, gcnt := 0, prn := [] }

/-- TAP1 and TAP2 loaded and the generator started (R94). -/
def loadTaps (p : TapPair) (s : Block) : Block := startGenerator { s with tap1 := p.tap1, tap2 := p.tap2 }

/-- SAT and the taps of table entry k loaded and the generator started (R95). -/
def selectEntry (k : Nat) (p : TapPair) (s : Block) : Block := loadTaps p { s with sat := BitVec.ofNat 5 k }

/-- The bit the generator emits next (R98). -/
def nextBit (s : Block) : Bool := combine s.g1 s.g2 s.tap1 s.tap2

/-- One generator step: emit into PRN[GCNT], advance G1, G2 and GCNT, clear RESULT (R98). Every right-hand side reads the
state before the step. -/
def generatorStep (s : Block) : Block :=
  { clearResult s with
    prn := s.prn.write s.gcnt.toNat (nextBit s)
    g1 := next1 s.g1
    g2 := next2 s.g2
    gcnt := s.gcnt + 1 }

/-- n generator steps, one after the other. -/
def generatorSteps : Nat → Block → Block
  | 0, s => s
  | n + 1, s => generatorSteps n (generatorStep s)

/-- GINIT and then 1023 generator steps (R99), on legal taps. -/
def runGenerator (s : Block) : Except Fault Block :=
  if tapsLegal s then .ok (generatorSteps Config.period (startGenerator s)) else .error .illegalTap

/-- A computation on the whole CHIP and PRN sequences (R54): the model stops if one of their elements has no value. -/
def onSequences (s : Block) (f : List Sample → List Bool → Block) : Except Fault Block :=
  match Memory.sequence s.chip Config.period, s.prn.sequence Config.period with
  | some c, some p => .ok (f c p)
  | _, _ => .error .noValue

/-- ACC and OFS take a sum and its offset (R28, R29). -/
def storeSum (sum : Int) (o : Nat) (s : Block) : Block := { s with acc := BitVec.ofInt 18 sum, ofs := BitVec.ofNat 10 o }

/-- ACC ← sum(CHIP, PRN, o), OFS ← o (R120). -/
def sumAt (st : Strategy) (o : Nat) (s : Block) : Except Fault Block :=
  onSequences s fun c p => storeSum (sumBy st c p o) o s

/-- What CORR leaves: the last sum and its offset, the detection, RDONE = 1 (R122). -/
def storeSearch (r : Search) (s : Block) : Block :=
  { storeSum r.sum r.offset s with result := detectionOf r, rdone := true }

/-- correlate(CHIP, PRN, THRESH) into ACC, OFS, RESULT and RDONE (R122). -/
def correlateState (st : Strategy) (s : Block) : Except Fault Block :=
  onSequences s fun c p => storeSearch (search (sumsBy st c p) s.thresh.toNat) s

/-- RESULTS[k] ← (DET, BIT, OFFSET) of RESULT (R140). -/
def storeEntry (k : Nat) (s : Block) : Block :=
  { s with results := Memory.writeOver Detection.absent s.results k s.result }

/-- The body of SCAN for entry k: SELSAT, GEN, CORR, store (R140). -/
def scanEntry (st : Strategy) (k : Nat) (p : TapPair) (s : Block) : Except Fault Block :=
  match runGenerator (selectEntry k p s) with
  | .ok t =>
    match correlateState st t with
    | .ok u => .ok (storeEntry k u)
    | .error f => .error f
  | .error f => .error f

/-- The loop of SCAN over the entries from k on, in table order (R139, R140). -/
def scanFrom (st : Strategy) : Nat → List TapPair → Block → Except Fault Block
  | _, [], s => .ok s
  | k, p :: ps, s =>
    match scanEntry st k p s with
    | .ok t => scanFrom st (k + 1) ps t
    | .error f => .error f

/-- The whole of SCAN: every entry of the table, then SDONE ← 1 (R140). -/
def scanState (st : Strategy) (s : Block) : Except Fault Block :=
  if tableLegal s.tapTable then
    match scanFrom st 0 s.tapTable.toList s with
    | .ok t => .ok { t with sdone := true }
    | .error f => .error f
  else .error .notAConfiguration

/-- The detection bitmap: bit k is RESULTS[k].DET for k < NSAT, other bits 0 (R75, R140). -/
def detectionBitmap (s : Block) : Word :=
  (BitVec.ofBoolListLE ((List.range s.tapTable.nsat).map fun k => (resultEntry s k).det)).setWidth 32

/-- RESULT with RDONE as a word (R85). -/
def resultReg (s : Block) : Word := (resultWord s.rdone s.result).setWidth 32

/-- Reset: the state of R40 for the block's own table, whatever the state was (R173). -/
def applyReset (s : Block) : Block := Block.resetWith s.tapTable

/-! ### The host's end of the port -/

/-- The host is given a response: the block is in the state b, the host's record is one response longer (R65, R66). -/
def reply (s : State) (b : Block) (r : Response) : State :=
  { block := b, inputs := s.inputs, responses := s.responses ++ [r] }

/-- The block makes a transition and the host is given its response (R66). The transition reads the block alone. -/
def serve (f : Block → Transition) (s : State) : Outcome :=
  match f s.block with
  | .ok (b, r) => .next (reply s b r)
  | .error e => .fault e

/-- Reset between commands: the block is reset; it gives no response, and the host keeps what it holds (log 4). -/
def resetBlock (s : State) : State := { s with block := applyReset s.block }

/-- Reset during a command: the state after is still that of R40; the interrupted command's response is a free value, a
fresh one for each (R170; log 16). -/
def interruptByReset (s : State) : State :=
  reply s (applyReset s.block)
    ⟨Config.interruptedFault s.responses.length, Config.interruptedData s.responses.length⟩

end Sys2Proof.Machine
end

