-- ==== Sys2Proof/Machine/Correlator.lean ====
section
/-! DEFINITION. The correlator family (spec/41): CLRCHIP, LDCHIP, RDCHIP, SETTHR, CSUM, CORR. -/

namespace Sys2Proof.Machine

/-- CLRCHIP (R110): with CHIPCNT = 0 no CHIP element has a value. -/
def blockClrchip (s : Block) : Transition := complete 0 (clearResults { s with chipcnt := 0, chip := [] })

/-- CLRCHIP, as the host sees it (R66). -/
def execClrchip (s : State) : Outcome := serve blockClrchip s

/-- LDCHIP v (R111): E_CHIP_FULL when CHIPCNT = 1023. -/
def blockLdchip (v : Sample) (s : Block) : Transition :=
  if chipFull s then takeFault .chipFull s
  else
    complete 0 (clearResults { s with chip := Memory.write s.chip s.chipcnt.toNat v, chipcnt := s.chipcnt + 1 })

/-- LDCHIP v, as the host sees it (R66). -/
def execLdchip (v : Sample) (s : State) : Outcome := serve (blockLdchip v) s

/-- RDCHIP i (R112): E_INDEX unless i < CHIPCNT. -/
def blockRdchip (i : BitVec 10) (s : Block) : Transition :=
  if s.chipcnt.toNat ≤ i.toNat then takeFault .index s
  else
    match Memory.read s.chip i.toNat with
    | some v => complete (v.signExtend 32) s
    | none => .error .noValue

/-- RDCHIP i, as the host sees it (R66). -/
def execRdchip (i : BitVec 10) (s : State) : Outcome := serve (blockRdchip i) s

/-- SETTHR v (R113). -/
def blockSetthr (v : BitVec 17) (s : Block) : Transition := complete 0 (clearResults { s with thresh := v })

/-- SETTHR v, as the host sees it (R66). -/
def execSetthr (v : BitVec 17) (s : State) : Outcome := serve (blockSetthr v) s

/-- CSUM o (R120): E_INDEX for o = 1023, then E_CHIP_SHORT, then E_PRN_SHORT. -/
def blockCsum (o : BitVec 10) (s : Block) : Transition :=
  if o.toNat = Config.period then takeFault .index s
  else if !chipFull s then takeFault .chipShort s
  else if !prnFull s then takeFault .prnShort s
  else finish (fun t => t.acc.signExtend 32) (sumAt Config.strategy o.toNat s)

/-- CSUM o, as the host sees it (R66). -/
def execCsum (o : BitVec 10) (s : State) : Outcome := serve (blockCsum o) s

/-- CORR (R122): E_CHIP_SHORT, then E_PRN_SHORT. -/
def blockCorr (s : Block) : Transition :=
  if !chipFull s then takeFault .chipShort s
  else if !prnFull s then takeFault .prnShort s
  else finish resultReg (correlateState Config.strategy s)

/-- CORR, as the host sees it (R66). -/
def execCorr (s : State) : Outcome := serve blockCorr s

end Sys2Proof.Machine
end

