-- ==== Sys2Proof/Machine/Generator.lean ====
section
/-! DEFINITION. The generator family (spec/40): SETTAP, SELSAT, GINIT, GSTEP, GEN, RDPRN. -/

namespace Sys2Proof.Machine

/-- SETTAP t1, t2 (R94): E_TAP unless both taps are in 1..10. -/
def blockSettap (t1 t2 : BitVec 4) (s : Block) : Transition :=
  if pairLegal ⟨t1, t2⟩ then complete 0 (loadTaps ⟨t1, t2⟩ s) else takeFault .tap s

/-- SETTAP t1, t2, as the host sees it (R66). -/
def execSettap (t1 t2 : BitVec 4) (s : State) : Outcome := serve (blockSettap t1 t2) s

/-- SELSAT k (R95): E_SAT unless k < NSAT. -/
def blockSelsat (k : BitVec 5) (s : Block) : Transition :=
  match s.tapTable.toList[k.toNat]? with
  | some p => complete 0 (selectEntry k.toNat p s)
  | none => takeFault .satellite s

/-- SELSAT k, as the host sees it (R66). -/
def execSelsat (k : BitVec 5) (s : State) : Outcome := serve (blockSelsat k) s

/-- GINIT (R97). -/
def blockGinit (s : Block) : Transition := complete 0 (startGenerator s)

/-- GINIT, as the host sees it (R66). -/
def execGinit (s : State) : Outcome := serve blockGinit s

/-- GSTEP (R98): E_GEN_OVERRUN when GCNT = 1023; answers the bit it emits. -/
def blockGstep (s : Block) : Transition :=
  if prnFull s then takeFault .genOverrun s
  else if tapsLegal s then complete (bitWord (nextBit s)) (generatorStep s)
  else .error .illegalTap

/-- GSTEP, as the host sees it (R66). -/
def execGstep (s : State) : Outcome := serve blockGstep s

/-- GEN (R99). -/
def blockGen (s : Block) : Transition := finish (fun _ => 0) (runGenerator s)

/-- GEN, as the host sees it (R66). -/
def execGen (s : State) : Outcome := serve blockGen s

/-- RDPRN enc, i (R100): E_ILLEGAL for enc = 3, then E_INDEX unless i < GCNT. -/
def blockRdprn (enc : BitVec 2) (i : BitVec 10) (s : Block) : Transition :=
  if enc.toNat = 3 then takeFault .illegal s
  else if s.gcnt.toNat ≤ i.toNat then takeFault .index s
  else
    match s.prn.read i.toNat with
    | some b => complete (prnView enc b) s
    | none => .error .noValue

/-- RDPRN enc, i, as the host sees it (R66). -/
def execRdprn (enc : BitVec 2) (i : BitVec 10) (s : State) : Outcome := serve (blockRdprn enc i) s

end Sys2Proof.Machine
end

