-- ==== Sys2Proof/Machine/Housekeeping.lean ====
section
/-! DEFINITION. The housekeeping family (spec/42): NOP, RDREG. -/

namespace Sys2Proof.Machine

/-- NOP (R146): no state changes; it answers 0. -/
def blockNop (s : Block) : Transition := complete 0 s

/-- NOP, as the host sees it (R66). -/
def execNop (s : State) : Outcome := serve blockNop s

/-- RDREG r (R148): E_REG for r = 11..15. -/
def blockRdreg (r : BitVec 4) (s : Block) : Transition :=
  match readRegister r s with
  | some w => complete w s
  | none => takeFault .register s

/-- RDREG r, as the host sees it (R66). -/
def execRdreg (r : BitVec 4) (s : State) : Outcome := serve (blockRdreg r) s

end Sys2Proof.Machine
end

