-- ==== Sys2Proof/Machine/Scanner.lean ====
section
/-! DEFINITION. The scanner family (spec/42): SCAN, RDSAT. -/

namespace Sys2Proof.Machine

/-- scan(c, th) for a table, the source's contract: one pair (k + 1, result) per satellite in table order (R139). -/
def scanList (table : TapTable) (c : List Sample) (th : Nat) : List (Nat × Detection) :=
  table.toList.zipIdx.map fun e => (e.2 + 1, correlate c (generate e.1.tap1 e.1.tap2) th)

/-- SCAN (R140): E_CHIP_SHORT before anything is written; answers the detection bitmap. -/
def blockScan (s : Block) : Transition :=
  if !chipFull s then takeFault .chipShort s
  else finish detectionBitmap (scanState Config.strategy s)

/-- SCAN, as the host sees it (R66). -/
def execScan (s : State) : Outcome := serve blockScan s

/-- RDSAT k (R143): E_SAT unless k < NSAT. -/
def blockRdsat (k : BitVec 5) (s : Block) : Transition :=
  if k.toNat < s.tapTable.nsat then complete ((resultWord s.sdone (resultEntry s k.toNat)).setWidth 32) s
  else takeFault .satellite s

/-- RDSAT k, as the host sees it (R66). -/
def execRdsat (k : BitVec 5) (s : State) : Outcome := serve (blockRdsat k) s

end Sys2Proof.Machine
end

