-- ==== Sys2Proof/Machine/Dispatch.lean ====
section
/-! DEFINITION. One arm per command: each calls its meaning. -/

namespace Sys2Proof.Machine

def exec (i : Instr) (s : State) : Host.Outcome State Fault Refusal :=
  match i with
  | .nop => Sys2Proof.Machine.execNop s
  | .rdreg r => Sys2Proof.Machine.execRdreg r s
  | .settap t1 t2 => Sys2Proof.Machine.execSettap t1 t2 s
  | .selsat k => Sys2Proof.Machine.execSelsat k s
  | .ginit => Sys2Proof.Machine.execGinit s
  | .gstep => Sys2Proof.Machine.execGstep s
  | .gen => Sys2Proof.Machine.execGen s
  | .rdprn enc j => Sys2Proof.Machine.execRdprn enc j s
  | .clrchip => Sys2Proof.Machine.execClrchip s
  | .ldchip v => Sys2Proof.Machine.execLdchip v s
  | .rdchip j => Sys2Proof.Machine.execRdchip j s
  | .setthr v => Sys2Proof.Machine.execSetthr v s
  | .csum o => Sys2Proof.Machine.execCsum o s
  | .corr => Sys2Proof.Machine.execCorr s
  | .scan => Sys2Proof.Machine.execScan s
  | .rdsat k => Sys2Proof.Machine.execRdsat k s

end Sys2Proof.Machine
end

