-- ==== Sys2Proof/Machine/Port.lean ====
section
/-! DEFINITION. The command port (R63, R64): as a function of the block's state and the command word, and what one event
of the host does to the block and to the host's record. -/

namespace Sys2Proof.Machine

/-- The transition the block makes on a command: exec without the host (R63). -/
def blockCommand (i : Instr) : Block → Transition :=
  match i with
  | .nop => blockNop
  | .rdreg r => blockRdreg r
  | .settap t1 t2 => blockSettap t1 t2
  | .selsat k => blockSelsat k
  | .ginit => blockGinit
  | .gstep => blockGstep
  | .gen => blockGen
  | .rdprn enc j => blockRdprn enc j
  | .clrchip => blockClrchip
  | .ldchip v => blockLdchip v
  | .rdchip j => blockRdchip j
  | .setthr v => blockSetthr v
  | .csum o => blockCsum o
  | .corr => blockCorr
  | .scan => blockScan
  | .rdsat k => blockRdsat k

/-- The port: from the block's state and a command word to its next state and the response (R63, R66). A word that is no
command takes E_ILLEGAL (R72). -/
def port (w : Word) (s : Block) : Transition :=
  match decode w with
  | .ok i => blockCommand i s
  | .error _ => takeFault .illegal s

/-- A command word is presented to the idle block (R66, R70): decoded and run, or refused with E_ILLEGAL (R72). -/
def present (w : Word) (s : State) : Outcome :=
  match decode w with
  | .ok i => exec i s
  | .error _ => serve (takeFault .illegal) s

/-- One event of the host: a command word, or reset (R173), also during a command (R170). -/
def takeEvent (e : HostEvent) (s : State) : Outcome :=
  match e with
  | .command w => present w s
  | .reset => .next (resetBlock s)
  | .resetDuringCommand => .next (interruptByReset s)

end Sys2Proof.Machine
end

