-- ==== Sys2Proof/Machine/Step.lean ====
section
/-! DEFINITION. One step: the block takes the next event of the host (R63, R64). -/

namespace Sys2Proof.Machine

/-- The next event of the host. With nothing queued the block is idle and stays as it is (R174; log 3). -/
def step (s : State) : Host.Outcome State Fault Refusal :=
  match s.inputs with
  | [] => .next s
  | e :: rest => takeEvent e { s with inputs := rest }

/-- The state with the table's word as the host's next command, so that the next step presents it (log 15). -/
def State.withFetchWord (s : State) (nbits w : Nat) : State :=
  { s with inputs := .command (tableWord nbits w) :: s.inputs }

end Sys2Proof.Machine
end

