-- ==== Sys2Proof/Machine/Assembler.lean ====
section
/-! DEFINITION. The host's notation for commands (R86), its pseudo-instructions (R87) and its report (R88). Nothing here is
part of the block: a pseudo-instruction is the list of commands it expands to. -/

namespace Sys2Proof.Machine

/-- The mnemonic of a command, in capitals (R69, R86). -/
def mnemonic : Instr → String
  | .nop => "NOP"
  | .rdreg _ => "RDREG"
  | .settap _ _ => "SETTAP"
  | .selsat _ => "SELSAT"
  | .ginit => "GINIT"
  | .gstep => "GSTEP"
  | .gen => "GEN"
  | .rdprn _ _ => "RDPRN"
  | .clrchip => "CLRCHIP"
  | .ldchip _ => "LDCHIP"
  | .rdchip _ => "RDCHIP"
  | .setthr _ => "SETTHR"
  | .csum _ => "CSUM"
  | .corr => "CORR"
  | .scan => "SCAN"
  | .rdsat _ => "RDSAT"

/-- The operands of a command in R69's order, as the numbers they stand for: unsigned, but LDCHIP's v signed (R71). -/
def operands : Instr → List Int
  | .nop => []
  | .rdreg r => [r.toNat]
  | .settap t1 t2 => [t1.toNat, t2.toNat]
  | .selsat k => [k.toNat]
  | .ginit => []
  | .gstep => []
  | .gen => []
  | .rdprn enc i => [enc.toNat, i.toNat]
  | .clrchip => []
  | .ldchip v => [v.toInt]
  | .rdchip i => [i.toNat]
  | .setthr v => [v.toNat]
  | .csum o => [o.toNat]
  | .corr => []
  | .scan => []
  | .rdsat k => [k.toNat]

/-- The line of a command: the mnemonic, then the operands separated by commas (R86). -/
def asmLine (i : Instr) : String :=
  match operands i with
  | [] => mnemonic i
  | ops => mnemonic i ++ " " ++ String.intercalate ", " (ops.map toString)

/-- The pseudo-instructions of R87. -/
inductive Pseudo where
  | gensat (k : BitVec 5)
  | gentap (t1 t2 : BitVec 4)
  | load (chips : List Sample)
  | corrtap (t1 t2 : BitVec 4)
  | rdres
  | rdstat
deriving DecidableEq, Repr

/-- The expansion of a pseudo-instruction (R87). -/
def expand : Pseudo → List Instr
  | .gensat k => [.selsat k, .gen]
  | .gentap t1 t2 => [.settap t1 t2, .gen]
  | .load chips => .clrchip :: chips.map .ldchip
  | .corrtap t1 t2 => [.settap t1 t2, .gen, .corr]
  | .rdres => [.rdreg 9]
  | .rdstat => [.rdreg 10]

/-- `.rep n` … `.end`: the enclosed commands n times (R86). -/
def repeated (n : Nat) (body : List Instr) : List Instr := (List.replicate n body).flatten

/-- A number in a field of width 2, padded with a space (R88). -/
def field2 (n : Nat) : String := if n < 10 then " " ++ toString n else toString n

/-- The reporter's line for satellite number n, on the host's side: none without a detection (R88). -/
def reporterLine (n : Nat) (d : Detection) : Option String :=
  if d.det then
    some ("Satellite " ++ field2 n ++ " has sent bit " ++ (if d.bit then "1" else "0") ++ " (delta = " ++
      toString d.offset.toNat ++ ")")
  else none

/-- What the reporter prints of a scan: one line per detection, in ascending satellite order (R88, R139). -/
def report (results : List (Nat × Detection)) : List String := results.filterMap fun e => reporterLine e.1 e.2

/-- Commands as the host gives them at the port (R63). -/
def eventsOf (commands : List Instr) : List HostEvent := commands.map fun i => .command (encode i)

/-- The commands run one after the other, each on the state the one before left (R56). -/
def execAll : List Instr → State → Outcome
  | [], s => .next s
  | i :: rest, s =>
    match exec i s with
    | .next t => execAll rest t
    | .fault f => .fault f
    | .refused r => .refused r

end Sys2Proof.Machine
end

