-- ==== Sys2Proof/Safety.lean ====
section
/-! DEFINITION. What the claims are stated with: the state a faulting command leaves (R153), a good run (R155), the legal
values of R39, the shape of the memories, and the invariants of R24 and R32. -/

namespace Sys2Proof.Machine

/-- The state a command that faults with a cause code leaves, field by field (R153). -/
def afterFault (code : BitVec 4) (s : State) : State :=
  { s with
    err := true
    cause := if s.err then s.cause else code
    responses := s.responses ++ [⟨true, code.setWidth 32⟩] }

/-- The state a command that changes nothing leaves: one more response, fault = 0 (R50, R65). -/
def afterRead (rdata : Word) (s : State) : State := { s with responses := s.responses ++ [⟨false, rdata⟩] }

/-- Every response of the run so far had fault = 0 (R155). -/
def cleanRun (s : State) : Prop := ∀ r ∈ s.responses, r.fault = false

/-- A bit as a number. -/
def bitNat (b : Bool) : Nat := if b then 1 else 0

/-- "DET = 0 implies BIT = 0 and OFFSET = 0", and OFFSET ≤ 1022 (R39). -/
def detectionLegal (d : Detection) : Prop :=
  d.offset.toNat ≤ 1022 ∧ (d.det = false → d.bit = false ∧ d.offset.toNat = 0)

/-- The legal values of R39, for a machine whose table is a configuration (R34). -/
structure LegalValues (s : Block) : Prop where
  /-- 1 ≤ NSAT ≤ 32 and every tap of the table in 1..10. -/
  table : 1 ≤ s.tapTable.nsat ∧ s.tapTable.nsat ≤ 32 ∧
    ∀ p ∈ s.tapTable.toList, (1 ≤ p.tap1.toNat ∧ p.tap1.toNat ≤ 10) ∧ (1 ≤ p.tap2.toNat ∧ p.tap2.toNat ≤ 10)
  taps : (1 ≤ s.tap1.toNat ∧ s.tap1.toNat ≤ 10) ∧ (1 ≤ s.tap2.toNat ∧ s.tap2.toNat ≤ 10)
  sat : s.sat.toNat < s.tapTable.nsat
  gcnt : s.gcnt.toNat ≤ 1023
  chipcnt : s.chipcnt.toNat ≤ 1023
  ofs : s.ofs.toNat ≤ 1022
  result : detectionLegal s.result
  entries : ∀ k < s.tapTable.nsat, detectionLegal (resultEntry s k)
  acc : s.acc.toInt.natAbs ≤ 130944
  cause : s.cause.toNat ≤ 9 ∧ (s.cause.toNat = 0 ↔ s.err = false)
  rdone : s.rdone = false → s.result.det = false
  sdone : s.sdone = false → ∀ k < s.tapTable.nsat, resultEntry s k = ⟨false, false, 0⟩

/-- The memories are in canonical form and hold exactly the elements that have a value: PRN 0..GCNT − 1 (R23), CHIP
0..CHIPCNT − 1 (R26), RESULTS within 0..NSAT − 1 (R45). -/
structure MemoryShape (s : Block) : Prop where
  prnCanonical : s.prn.wf
  chipCanonical : Memory.wf s.chip
  resultsCanonical : s.results.wfOver Detection.absent
  prnElements : ∀ i, (∃ b, s.prn.read i = some b) ↔ i < s.gcnt.toNat
  chipElements : ∀ j, (∃ v, Memory.read s.chip j = some v) ↔ j < s.chipcnt.toNat
  resultElements : ∀ k d, s.results.read k = some d → k < s.tapTable.nsat

/-- The generator invariant of R24: with n = GCNT, PRN holds the first n bits of generate(TAP1, TAP2), and G1 and G2 are
what n shifts make of 0x3FF. -/
structure GeneratorInvariant (s : Block) : Prop where
  prn : ∀ i, s.prn.read i = ((generate s.tap1 s.tap2).take s.gcnt.toNat)[i]?
  g1 : s.g1 = shiftTimes next1 s.gcnt.toNat 0x3FF
  g2 : s.g2 = shiftTimes next2 s.gcnt.toNat 0x3FF

/-- The list is the whole captured sequence in CHIP (R26, R46). -/
def chipsAre (s : Block) (chips : List Sample) : Prop :=
  chips.length = 1023 ∧ ∀ j < 1023, Memory.read s.chip j = chips[j]?

/-- The list is the whole sequence in PRN (R23, R46). -/
def prnIs (s : Block) (bits : List Bool) : Prop := bits.length = 1023 ∧ ∀ i < 1023, s.prn.read i = bits[i]?

/-- The result invariants of R32. -/
structure ResultInvariant (s : Block) : Prop where
  rdone : s.rdone = true → s.gcnt.toNat = 1023 ∧ s.chipcnt.toNat = 1023 ∧
    ∃ c p, chipsAre s c ∧ prnIs s p ∧ s.result = correlate c p s.thresh.toNat
  sdone : s.sdone = true → s.chipcnt.toNat = 1023 ∧
    ∃ c, chipsAre s c ∧ ∀ (k : Nat) (p : TapPair), s.tapTable.toList[k]? = some p →
      resultEntry s k = correlate c (generate p.tap1 p.tap2) s.thresh.toNat

/-- sum(c, p, o) as R119 writes it, on sequences given by index. -/
def circularSum (c : Nat → Sample) (p : Nat → Bool) (o : Nat) : Int :=
  ∑ i ∈ Finset.range 1023, (c ((o + i) % 1023)).toInt * (if p i then 1 else -1)

end Sys2Proof.Machine
end

