-- ==== Sys2Proof/Certificates/Slice0/Obligations.lean ====
section
/-! DEFINITION. The statements for the provers. Each formalises rules of spec/ named in its docstring; a hypothesis on a
state is met by a named witness in Sys2Proof/Tests/Slice0.lean. -/

open Sys2Proof Sys2Proof.Machine

/-! ### Encoding -/

/-- R68, R69, R70: the word of every command decodes to that command, every operand at every value of its field. -/
def Obligations.DecodeEncodeRoundTrip : Prop :=
  ∀ i : Instr, decode (encode i) = .ok i

/-- R68: every bit of a command word is accounted for, so a word that decodes is the word of what it decodes to. -/
def Obligations.EncodeDecodeRoundTrip : Prop :=
  ∀ (w : Word) (i : Instr), decode w = .ok i → encode i = w

/-- R69, R70: the row a word selects is the only one it selects, and gives its command; a word that selects none is
rejected. -/
def Obligations.DecoderFollowsTheOneSelectedRow : Prop :=
  ∀ w : Word,
    (∀ (j : Nat) (row : OpcodeRow), opcodeRows[j]? = some row → w &&& row.mask = row.pattern →
      decode w = .ok (row.build w) ∧
        ∀ (k : Nat) (row' : OpcodeRow), opcodeRows[k]? = some row' → w &&& row'.mask = row'.pattern → k = j) ∧
    ((∀ row ∈ opcodeRows, w &&& row.mask ≠ row.pattern) → ∃ e, decode w = .error e)

/-- R72, R73: a word is rejected for its opcode exactly when OPC is none of the sixteen, and for a reserved bit exactly
when OPC is one of them and the word is no command's. -/
def Obligations.RejectedWordsByName : Prop :=
  ∀ w : Word,
    (decode w = .error .unknownOpcode ↔
      w.extractLsb' 24 8 ∉ [0x00#8, 0x01#8, 0x10#8, 0x11#8, 0x12#8, 0x13#8, 0x14#8, 0x15#8, 0x20#8, 0x21#8, 0x22#8,
        0x23#8, 0x24#8, 0x25#8, 0x30#8, 0x31#8]) ∧
    (decode w = .error .reservedBit ↔
      w.extractLsb' 24 8 ∈ [0x00#8, 0x01#8, 0x10#8, 0x11#8, 0x12#8, 0x13#8, 0x14#8, 0x15#8, 0x20#8, 0x21#8, 0x22#8,
        0x23#8, 0x24#8, 0x25#8, 0x30#8, 0x31#8] ∧ ∀ i, encode i ≠ w)

/-- R72: 137815 words match a row of the opcode map. -/
def Obligations.CommandWordCount : Prop :=
  {w : Word | ∃ i, decode w = .ok i}.ncard = 137815

/-- R77 (the spec's own inference from R68 and R69): the worked encodings, each word decoded; the six illegal words take
E_ILLEGAL. -/
def Obligations.WorkedEncodings : Prop :=
  decode 0x10000026#32 = .ok (.settap 2 6) ∧ decode 0x11000017#32 = .ok (.selsat 23) ∧
  decode 0x13000000#32 = .ok .gstep ∧ decode 0x150003FE#32 = .ok (.rdprn 0 1022) ∧
  decode 0x15000400#32 = .ok (.rdprn 1 0) ∧ decode 0x15000805#32 = .ok (.rdprn 2 5) ∧
  decode 0x210000CE#32 = .ok (.ldchip (BitVec.ofInt 8 (-50))) ∧ decode 0x21000032#32 = .ok (.ldchip 50) ∧
  decode 0x21000080#32 = .ok (.ldchip (BitVec.ofInt 8 (-128))) ∧ decode 0x230000C8#32 = .ok (.setthr 200) ∧
  decode 0x2301FFFF#32 = .ok (.setthr 131071) ∧ decode 0x24000064#32 = .ok (.csum 100) ∧
  decode 0x31000000#32 = .ok (.rdsat 0) ∧ decode 0x01000009#32 = .ok (.rdreg 9) ∧
  ∀ w ∈ [0x02000000#32, 0x12000001#32, 0x15000C00#32, 0x21000100#32, 0x23020000#32, 0xFFFFFFFF#32],
    ∀ s : State, present w s = .next (afterFault 1 s)

/-! ### The port -/

/-- R64, R70: a command word the host presents is run as the command it decodes to, on the state with the word taken
from the host's queue (which is no state of the block, log 1). -/
def Obligations.StepRunsDecodedCommand : Prop :=
  ∀ (s : State) (w : Word) (rest : List HostEvent) (i : Instr),
    s.inputs = .command w :: rest → decode w = .ok i → step s = exec i { s with inputs := rest }

/-- R63, R66: the port is a total function from the block's state and the command word to the block's next state and the
response. A step that takes the word makes that transition whatever the host has queued behind it and whatever responses
the host was given before (its queue and its record are no state of the block, R41; log 1, log 2). -/
def Obligations.PortIsATotalFunction : Prop :=
  ∀ (w : Word) (b : Block), LegalValues b → MemoryShape b →
    ∃ (b' : Block) (r : Response), port w b = .ok (b', r) ∧
      ∀ (rest : List HostEvent) (given : List Response),
        step { block := b, inputs := .command w :: rest, responses := given } =
          .next { block := b', inputs := rest, responses := given ++ [r] }

/-- R72: an illegal word faults with E_ILLEGAL (cause 1), changing no other state. -/
def Obligations.StepFaultsOnIllegalWord : Prop :=
  ∀ (s : State) (w : Word) (rest : List HostEvent) (e : DecodeError),
    s.inputs = .command w :: rest → decode w = .error e →
      step s = .next { s with
        inputs := rest
        err := true
        cause := if s.err then s.cause else 1
        responses := s.responses ++ [⟨true, 0x00000001#32⟩] }

/-- R174 and log 3 (the model's reading): with nothing given at the port the block is idle and its state stays. After
reset nothing is queued and nothing has been answered (the model's choice, log 1 and log 2). -/
def Obligations.IdleBlockStays : Prop :=
  (∀ s : State, s.inputs = [] → step s = .next s) ∧
  ∀ table : TapTable, (State.resetWith table).inputs = [] ∧ (State.resetWith table).responses = []

/-- R40: the state after reset, for every table; the machine's own reset is the one with the default table. -/
def Obligations.ResetValues : Prop :=
  (∀ (table : TapTable) (s : State), s = State.resetWith table →
    s.g1 = 0x3FF ∧ s.g2 = 0x3FF ∧ table.toList[0]? = some ⟨s.tap1, s.tap2⟩ ∧ s.sat = 0 ∧ s.gcnt = 0 ∧
    (∀ i, s.prn.read i = none) ∧ s.chipcnt = 0 ∧ (∀ j, Memory.read s.chip j = none) ∧ s.thresh = 200 ∧ s.acc = 0 ∧
    s.ofs = 0 ∧ s.result = ⟨false, false, 0⟩ ∧ s.rdone = false ∧ (∀ k, resultEntry s.block k = ⟨false, false, 0⟩) ∧
    s.sdone = false ∧ s.err = false ∧ s.cause = 0 ∧ s.tapTable = table) ∧
  State.reset = State.resetWith Config.defaultTapTable ∧ State.reset.tap1 = 2 ∧ State.reset.tap2 = 6 ∧
  Config.defaultTapTable.nsat = 24

/-- R173: a reset event gives the state of R40 for the block's own table, whatever the state was; so does reset during a
command (R170), whose response is a free value (log 16); and nothing else clears ERR or changes a recorded cause. -/
def Obligations.OnlyResetClearsErr : Prop :=
  (∀ (s : State) (rest : List HostEvent) (t : State),
    t = { g1 := 0x3FF, g2 := 0x3FF, tap1 := s.tapTable.first.tap1, tap2 := s.tapTable.first.tap2, sat := 0, gcnt := 0
          prn := [], chipcnt := 0, chip := [], thresh := 200, acc := 0, ofs := 0, result := ⟨false, false, 0⟩
          rdone := false, results := [], sdone := false, err := false, cause := 0, tapTable := s.tapTable
          inputs := rest, responses := s.responses } →
    (s.inputs = .reset :: rest → step s = .next t) ∧
    (s.inputs = .resetDuringCommand :: rest →
      ∃ r : Response, step s = .next { t with responses := s.responses ++ [r] })) ∧
  ∀ s t : State, step s = .next t → s.err = true →
    (∀ rest, s.inputs ≠ .reset :: rest ∧ s.inputs ≠ .resetDuringCommand :: rest) → t.err = true ∧ t.cause = s.cause

/-- R65: every command gives exactly one response; one that faults answers its cause code, 1 to 9. -/
def Obligations.OneResponsePerCommand : Prop :=
  ∀ (s t : State) (w : Word) (rest : List HostEvent), s.inputs = .command w :: rest → step s = .next t →
    ∃ r : Response, t.responses = s.responses ++ [r] ∧ t.inputs = rest ∧
      (r.fault = true → 1 ≤ r.rdata.toNat ∧ r.rdata.toNat ≤ 9)

/-! ### Faults -/

/-- R153: a command that answers fault = 1 changes nothing but ERR and CAUSE, and those only if ERR was 0. -/
def Obligations.FaultingCommandChangesNothingElse : Prop :=
  ∀ (i : Instr) (s t : State) (d : Word), exec i s = .next t → t.responses = s.responses ++ [⟨true, d⟩] →
    ∃ code : BitVec 4, 1 ≤ code.toNat ∧ code.toNat ≤ 9 ∧ d = code.setWidth 32 ∧ t = afterFault code s

/-- R154, generator family: which cause each command reports, in the order of its checks. -/
def Obligations.GeneratorFaultOrder : Prop :=
  (∀ (t1 t2 : BitVec 4) (s : State), ¬((1 ≤ t1.toNat ∧ t1.toNat ≤ 10) ∧ (1 ≤ t2.toNat ∧ t2.toNat ≤ 10)) →
    exec (.settap t1 t2) s = .next (afterFault 3 s)) ∧
  (∀ (k : BitVec 5) (s : State), s.tapTable.nsat ≤ k.toNat → exec (.selsat k) s = .next (afterFault 4 s)) ∧
  (∀ s : State, s.gcnt = 1023 → exec .gstep s = .next (afterFault 6 s)) ∧
  (∀ (i : BitVec 10) (s : State), exec (.rdprn 3 i) s = .next (afterFault 1 s)) ∧
  (∀ (enc : BitVec 2) (i : BitVec 10) (s : State), enc ≠ 3 → s.gcnt.toNat ≤ i.toNat →
    exec (.rdprn enc i) s = .next (afterFault 5 s))

/-- R154, correlator, scanner and housekeeping: which cause each command reports, in the order of its checks. -/
def Obligations.CorrelatorFaultOrder : Prop :=
  (∀ (v : Sample) (s : State), s.chipcnt = 1023 → exec (.ldchip v) s = .next (afterFault 7 s)) ∧
  (∀ (i : BitVec 10) (s : State), s.chipcnt.toNat ≤ i.toNat → exec (.rdchip i) s = .next (afterFault 5 s)) ∧
  (∀ s : State, exec (.csum 1023) s = .next (afterFault 5 s)) ∧
  (∀ (o : BitVec 10) (s : State), o ≠ 1023 → s.chipcnt ≠ 1023 → exec (.csum o) s = .next (afterFault 8 s)) ∧
  (∀ (o : BitVec 10) (s : State), o ≠ 1023 → s.chipcnt = 1023 → s.gcnt ≠ 1023 →
    exec (.csum o) s = .next (afterFault 9 s)) ∧
  (∀ s : State, s.chipcnt ≠ 1023 → exec .corr s = .next (afterFault 8 s)) ∧
  (∀ s : State, s.chipcnt = 1023 → s.gcnt ≠ 1023 → exec .corr s = .next (afterFault 9 s)) ∧
  (∀ s : State, s.chipcnt ≠ 1023 → exec .scan s = .next (afterFault 8 s)) ∧
  (∀ (k : BitVec 5) (s : State), s.tapTable.nsat ≤ k.toNat → exec (.rdsat k) s = .next (afterFault 4 s)) ∧
  (∀ (r : BitVec 4) (s : State), 11 ≤ r.toNat → exec (.rdreg r) s = .next (afterFault 2 s))

/-- R76, R154 (the model's grouping of the checks that read no state, log 9): a command with an operand that names
nothing faults in every state. -/
def Obligations.IllFormedCommandFaults : Prop :=
  ∀ (i : Instr) (s : State), i.wellFormed = false →
    ∃ code : BitVec 4, 1 ≤ code.toNat ∧ code.toNat ≤ 9 ∧ exec i s = .next (afterFault code s)

/-- R155: the block behaves the same with ERR = 1 as with ERR = 0. Two states that differ only in ERR and CAUSE take
every command, but RDREG 10 which reads them, to states that differ only there, with the same response. -/
def Obligations.ErrAndCauseSteerNothing : Prop :=
  ∀ (i : Instr) (s t : State) (e : Bool) (c : BitVec 4), i ≠ .rdreg 10 → exec i s = .next t →
    ∃ t', exec i { s with err := e, cause := c } = .next t' ∧ t' = { t with err := t'.err, cause := t'.cause }

/-! ### Housekeeping -/

/-- R146: NOP, the all-zero word, changes no state and answers 0. -/
def Obligations.NopAnswersZero : Prop :=
  decode 0x00000000 = .ok .nop ∧ ∀ s : State, exec .nop s = .next { s with responses := s.responses ++ [⟨false, 0⟩] }

/-- R148 with the registers of R35 and the STATUS bits of R36: RDREG answers each register as a number, ACC with its
sign, changes nothing, and faults with E_REG for 11 to 15. -/
def Obligations.RdregReadsEveryRegister : Prop :=
  (∀ r : BitVec 4, decode (0x01#8 ++ 0#20 ++ r) = .ok (.rdreg r)) ∧
  ∀ s : State,
    exec (.rdreg 0) s = .next (afterRead (BitVec.ofNat 32 s.g1.toNat) s) ∧
    exec (.rdreg 1) s = .next (afterRead (BitVec.ofNat 32 s.g2.toNat) s) ∧
    exec (.rdreg 2) s = .next (afterRead (BitVec.ofNat 32 (16 * s.tap1.toNat + s.tap2.toNat)) s) ∧
    exec (.rdreg 3) s = .next (afterRead (BitVec.ofNat 32 s.sat.toNat) s) ∧
    exec (.rdreg 4) s = .next (afterRead (BitVec.ofNat 32 s.gcnt.toNat) s) ∧
    exec (.rdreg 5) s = .next (afterRead (BitVec.ofNat 32 s.chipcnt.toNat) s) ∧
    exec (.rdreg 6) s = .next (afterRead (BitVec.ofNat 32 s.thresh.toNat) s) ∧
    exec (.rdreg 7) s = .next (afterRead (BitVec.ofInt 32 s.acc.toInt) s) ∧
    exec (.rdreg 8) s = .next (afterRead (BitVec.ofNat 32 s.ofs.toNat) s) ∧
    exec (.rdreg 9) s = .next (afterRead (BitVec.ofNat 32 (4096 * bitNat s.rdone + 2048 * bitNat s.result.det +
      1024 * bitNat s.result.bit + s.result.offset.toNat)) s) ∧
    exec (.rdreg 10) s = .next (afterRead (BitVec.ofNat 32 (128 * bitNat s.sdone + 64 * bitNat (s.gcnt == 1023) +
      32 * bitNat (s.chipcnt == 1023) + 2 * s.cause.toNat + bitNat s.err)) s) ∧
    ∀ r : BitVec 4, 11 ≤ r.toNat → exec (.rdreg r) s = .next (afterFault 2 s)

/-! ### The generator -/

/-- R94: SETTAP loads both taps and starts the generator, or faults with E_TAP. -/
def Obligations.SettapStartsGenerator : Prop :=
  ∀ (t1 t2 : BitVec 4) (s : State),
    decode (0x10#8 ++ 0#16 ++ t1 ++ t2) = .ok (.settap t1 t2) ∧
    ((1 ≤ t1.toNat ∧ t1.toNat ≤ 10) ∧ (1 ≤ t2.toNat ∧ t2.toNat ≤ 10) →
      exec (.settap t1 t2) s = .next { s with
        tap1 := t1, tap2 := t2, g1 := 0x3FF, g2 := 0x3FF, gcnt := 0, prn := [], rdone := false
        result := ⟨false, false, 0⟩, responses := s.responses ++ [⟨false, 0⟩] }) ∧
    (¬((1 ≤ t1.toNat ∧ t1.toNat ≤ 10) ∧ (1 ≤ t2.toNat ∧ t2.toNat ≤ 10)) →
      exec (.settap t1 t2) s = .next (afterFault 3 s))

/-- R95: SELSAT loads SAT and the taps of the table's entry k and starts the generator, or faults with E_SAT. -/
def Obligations.SelsatLoadsTableEntry : Prop :=
  ∀ (k : BitVec 5) (s : State),
    decode (0x11#8 ++ 0#19 ++ k) = .ok (.selsat k) ∧
    (∀ p : TapPair, s.tapTable.toList[k.toNat]? = some p →
      exec (.selsat k) s = .next { s with
        sat := k, tap1 := p.tap1, tap2 := p.tap2, g1 := 0x3FF, g2 := 0x3FF, gcnt := 0, prn := [], rdone := false
        result := ⟨false, false, 0⟩, responses := s.responses ++ [⟨false, 0⟩] }) ∧
    (s.tapTable.nsat ≤ k.toNat → exec (.selsat k) s = .next (afterFault 4 s))

/-- R97: GINIT gives the generator its fresh register state and keeps the taps. -/
def Obligations.GinitGivesFreshRegisters : Prop :=
  decode 0x12000000 = .ok .ginit ∧ ∀ s : State, exec .ginit s = .next { s with
    g1 := 0x3FF, g2 := 0x3FF, gcnt := 0, prn := [], rdone := false, result := ⟨false, false, 0⟩
    responses := s.responses ++ [⟨false, 0⟩] }

/-- R98 with the shifts of R92 and R93 as numbers: GSTEP emits the combiner's bit into PRN[GCNT], advances both
registers and the counter, and leaves every other PRN element; at GCNT = 1023 it faults with E_GEN_OVERRUN. -/
def Obligations.GstepEmitsAndAdvances : Prop :=
  decode 0x13000000 = .ok .gstep ∧ ∀ s : State,
    (s.gcnt = 1023 → exec .gstep s = .next (afterFault 6 s)) ∧
    (s.gcnt ≠ 1023 → (1 ≤ s.tap1.toNat ∧ s.tap1.toNat ≤ 10) → (1 ≤ s.tap2.toNat ∧ s.tap2.toNat ≤ 10) →
      ∃ (t : State) (b f1 f2 : Bool),
        b = (s.g1.getLsbD 0 ^^ s.g2.getLsbD (10 - s.tap1.toNat) ^^ s.g2.getLsbD (10 - s.tap2.toNat)) ∧
        f1 = (s.g1.getLsbD 0 ^^ s.g1.getLsbD 7) ∧
        f2 = (s.g2.getLsbD 0 ^^ s.g2.getLsbD 1 ^^ s.g2.getLsbD 2 ^^ s.g2.getLsbD 4 ^^ s.g2.getLsbD 7 ^^
          s.g2.getLsbD 8) ∧
        exec .gstep s = .next t ∧
        t = { s with
          g1 := s.g1 >>> 1 ||| (BitVec.ofNat 10 (bitNat f1)) <<< 9
          g2 := s.g2 >>> 1 ||| (BitVec.ofNat 10 (bitNat f2)) <<< 9
          gcnt := BitVec.ofNat 10 (s.gcnt.toNat + 1), prn := t.prn, rdone := false, result := ⟨false, false, 0⟩
          responses := s.responses ++ [⟨false, BitVec.ofNat 32 (bitNat b)⟩] } ∧
        t.prn.read s.gcnt.toNat = some b ∧ ∀ a ≠ s.gcnt.toNat, t.prn.read a = s.prn.read a)

/-- R99 with R96 and R102: GEN fills PRN with generate(TAP1, TAP2), element i from the registers after i shifts, leaves
both registers at 0x3FF and GCNT at 1023, and changes nothing else. -/
def Obligations.GenFillsPrnWithTheCode : Prop :=
  decode 0x14000000 = .ok .gen ∧
  ∀ s : State, (1 ≤ s.tap1.toNat ∧ s.tap1.toNat ≤ 10) → (1 ≤ s.tap2.toNat ∧ s.tap2.toNat ≤ 10) →
    ∃ t : State, exec .gen s = .next t ∧
      t = { s with
        g1 := 0x3FF, g2 := 0x3FF, gcnt := 1023, prn := t.prn, rdone := false, result := ⟨false, false, 0⟩
        responses := s.responses ++ [⟨false, 0⟩] } ∧
      (∀ i < 1023, t.prn.read i =
        some (combine (shiftTimes next1 i 0x3FF) (shiftTimes next2 i 0x3FF) s.tap1 s.tap2)) ∧
      ∀ i, 1023 ≤ i → t.prn.read i = none

/-- R99: GEN leaves the state that GINIT and then 1023 GSTEP leave, but for the responses they gave. -/
def Obligations.GenIsGinitThenGsteps : Prop :=
  ∀ s : State, (1 ≤ s.tap1.toNat ∧ s.tap1.toNat ≤ 10) → (1 ≤ s.tap2.toNat ∧ s.tap2.toNat ≤ 10) →
    ∃ t u : State, exec .gen s = .next t ∧ execAll (.ginit :: repeated 1023 [.gstep]) s = .next u ∧
      { t with responses := s.responses } = { u with responses := s.responses }

/-- R100: RDPRN answers one bit plain, as a mask (255 for a 1) or bipolar (+1 for a 1, −1 for a 0), and changes nothing;
it faults with E_ILLEGAL for enc = 3, then with E_INDEX for i ≥ GCNT. -/
def Obligations.RdprnViewsOneBit : Prop :=
  ∀ (i : BitVec 10) (s : State),
    (∀ enc : BitVec 2, decode (0x15#8 ++ 0#12 ++ enc ++ i) = .ok (.rdprn enc i)) ∧
    exec (.rdprn 3 i) s = .next (afterFault 1 s) ∧
    (∀ enc : BitVec 2, enc ≠ 3 → s.gcnt.toNat ≤ i.toNat → exec (.rdprn enc i) s = .next (afterFault 5 s)) ∧
    ∀ b : Bool, i.toNat < s.gcnt.toNat → s.prn.read i.toNat = some b →
      exec (.rdprn 0 i) s = .next (afterRead (BitVec.ofNat 32 (bitNat b)) s) ∧
      exec (.rdprn 1 i) s = .next (afterRead (BitVec.ofNat 32 (255 * bitNat b)) s) ∧
      exec (.rdprn 2 i) s = .next (afterRead (BitVec.ofInt 32 (2 * bitNat b - 1)) s)

/-- R102 (the spec's own inference, by running R92 and R93): each register returns to 0x3FF after
1023 shifts and not before, passes through every non-zero value, and is never 0. -/
def Obligations.RegistersHaveFullPeriod : Prop :=
  ∀ next ∈ [next1, next2],
    shiftTimes next 1023 0x3FF = 0x3FF ∧ (∀ n, 0 < n → n < 1023 → shiftTimes next n 0x3FF ≠ 0x3FF) ∧
    (∀ g : BitVec 10, g ≠ 0 → ∃ n < 1023, shiftTimes next n 0x3FF = g) ∧ ∀ n, shiftTimes next n 0x3FF ≠ 0

/-- R103 and R104 (the spec's own inferences from R91): with equal taps the code is the output of G1
alone, and the order of the taps does not matter. -/
def Obligations.CodeSymmetryAndEqualTaps : Prop :=
  (∀ t1 t2 : BitVec 4, generate t1 t2 = generate t2 t1) ∧
  ∀ (t : BitVec 4) (i : Nat), i < 1023 → (generate t t)[i]? = some ((shiftTimes next1 i 0x3FF).getLsbD 0)

/-- R105 (the spec's own inference, by running R96 on the default table): every code of the default table has 512 ones
and generate(1, 10) has 480. Entries 1 to 23 of that table are the spec's "from general knowledge, not in source" (R33,
log 5). -/
def Obligations.DefaultCodesAreBalanced : Prop :=
  (∀ p ∈ Config.defaultTapTable.toList, (generate p.tap1 p.tap2).count true = 512 ∧
    (generate p.tap1 p.tap2).count false = 511) ∧ (generate 1 10).count true = 480

/-! ### The correlator -/

/-- R110: CLRCHIP forgets the captured sequence and clears every result. -/
def Obligations.ClrchipForgetsChips : Prop :=
  decode 0x20000000 = .ok .clrchip ∧ ∀ s : State, exec .clrchip s = .next { s with
    chipcnt := 0, chip := [], rdone := false, result := ⟨false, false, 0⟩, sdone := false, results := []
    responses := s.responses ++ [⟨false, 0⟩] }

/-- R111: LDCHIP appends one sample, leaves every other CHIP element and clears every result; with 1023 samples loaded
it faults with E_CHIP_FULL. -/
def Obligations.LdchipAppendsOneSample : Prop :=
  ∀ (v : Sample) (s : State),
    decode (0x21#8 ++ 0#16 ++ v) = .ok (.ldchip v) ∧
    (s.chipcnt = 1023 → exec (.ldchip v) s = .next (afterFault 7 s)) ∧
    (s.chipcnt ≠ 1023 →
      ∃ t : State, exec (.ldchip v) s = .next t ∧
        t = { s with
          chip := t.chip, chipcnt := BitVec.ofNat 10 (s.chipcnt.toNat + 1), rdone := false
          result := ⟨false, false, 0⟩, sdone := false, results := [], responses := s.responses ++ [⟨false, 0⟩] } ∧
        t.chipcnt.toNat = s.chipcnt.toNat + 1 ∧
        Memory.read t.chip s.chipcnt.toNat = some v ∧
        ∀ a ≠ s.chipcnt.toNat, Memory.read t.chip a = Memory.read s.chip a)

/-- R112: RDCHIP answers one loaded sample with its sign and changes nothing, or faults with E_INDEX. -/
def Obligations.RdchipReadsOneSample : Prop :=
  ∀ (i : BitVec 10) (s : State),
    decode (0x22#8 ++ 0#14 ++ i) = .ok (.rdchip i) ∧
    (∀ v : Sample, i.toNat < s.chipcnt.toNat → Memory.read s.chip i.toNat = some v →
      exec (.rdchip i) s = .next (afterRead (BitVec.ofInt 32 v.toInt) s)) ∧
    (s.chipcnt.toNat ≤ i.toNat → exec (.rdchip i) s = .next (afterFault 5 s))

/-- R113: SETTHR takes every 17-bit value and clears every result, even for the value already held. -/
def Obligations.SetthrClearsResults : Prop :=
  ∀ (v : BitVec 17) (s : State), decode (0x23#8 ++ 0#7 ++ v) = .ok (.setthr v) ∧ exec (.setthr v) s = .next { s with
    thresh := v, rdone := false, result := ⟨false, false, 0⟩, sdone := false, results := []
    responses := s.responses ++ [⟨false, 0⟩] }

/-- R119, R120: CSUM leaves in ACC, exactly, the 1023-term circular sum at offset o, and the offset in OFS, and changes
nothing else; the sum fits ACC. -/
def Obligations.CsumIsTheCircularSum : Prop :=
  ∀ (o : BitVec 10) (s : State) (c : Nat → Sample) (p : Nat → Bool), MemoryShape s.block → o ≠ 1023 →
    s.chipcnt = 1023 → s.gcnt = 1023 → (∀ j < 1023, Memory.read s.chip j = some (c j)) →
    (∀ i < 1023, s.prn.read i = some (p i)) →
      exec (.csum o) s = .next { s with
        acc := BitVec.ofInt 18 (circularSum c p o.toNat), ofs := o
        responses := s.responses ++ [⟨false, BitVec.ofInt 32 (circularSum c p o.toNat)⟩] } ∧
      (BitVec.ofInt 18 (circularSum c p o.toNat)).toInt = circularSum c p o.toNat

/-- R127 (the spec's own inference from R114 and R119): no sum exceeds 130944 in magnitude, so every
sum fits 18 bits signed and its magnitude 17 bits unsigned: R119's sum, and the sum CSUM, CORR and SCAN compute on the
whole sequences under either strategy (R128). -/
def Obligations.SumsNeverOverflow : Prop :=
  (∀ (c : Nat → Sample) (p : Nat → Bool) (o : Nat), (circularSum c p o).natAbs ≤ 130944) ∧
  ∀ (strategy : Strategy) (chips : List Sample) (bits : List Bool) (o : Nat),
    strategy = .scalar ∨ (∃ vw ∈ Config.vectorWidths, strategy = .vectorized vw) →
    chips.length = 1023 → bits.length = 1023 → o ≤ 1022 →
      (sumBy strategy chips bits o).natAbs ≤ 130944 ∧
      (BitVec.ofInt 18 (sumBy strategy chips bits o)).toInt = sumBy strategy chips bits o ∧
      (BitVec.ofNat 17 (sumBy strategy chips bits o).natAbs).toNat = (sumBy strategy chips bits o).natAbs

/-- R121, R122, R116: CORR reports the first offset in ascending order whose sum's magnitude is over THRESH, with bit 1
for a positive sum, and leaves that sum and offset in ACC and OFS; without one it reports no detection and leaves the
sum at offset 1022. Nothing else changes. -/
def Obligations.CorrReportsFirstCrossing : Prop :=
  decode 0x25000000 = .ok .corr ∧
  ∀ (s : State) (c : Nat → Sample) (p : Nat → Bool), MemoryShape s.block → s.chipcnt = 1023 → s.gcnt = 1023 →
    (∀ j < 1023, Memory.read s.chip j = some (c j)) → (∀ i < 1023, s.prn.read i = some (p i)) →
      ∃ (t : State) (o : Nat), exec .corr s = .next t ∧ o ≤ 1022 ∧
        (∀ o' < o, (circularSum c p o').natAbs ≤ s.thresh.toNat) ∧
        t.acc.toInt = circularSum c p o ∧ t.ofs.toNat = o ∧
        (s.thresh.toNat < (circularSum c p o).natAbs →
          t.result = ⟨true, decide (0 < circularSum c p o), BitVec.ofNat 10 o⟩ ∧ t.result.bit = !t.acc.msb ∧
          t.responses = s.responses ++ [⟨false, BitVec.ofNat 32 (0x1800 + 0x400 * bitNat t.result.bit + o)⟩]) ∧
        ((circularSum c p o).natAbs ≤ s.thresh.toNat →
          o = 1022 ∧ t.result = ⟨false, false, 0⟩ ∧ t.responses = s.responses ++ [⟨false, 0x1000⟩]) ∧
        t = { s with acc := t.acc, ofs := t.ofs, result := t.result, rdone := true, responses := t.responses }

/-- R27: a threshold of 130944 or more makes detection impossible. -/
def Obligations.HighThresholdNeverDetects : Prop :=
  ∀ (chips : List Sample) (bits : List Bool) (th : Nat), chips.length = 1023 → bits.length = 1023 → 130944 ≤ th →
    correlate chips bits th = ⟨false, false, 0⟩

/-- R120, corner cases: a constant captured sequence of value a gives a · (ones − zeros) at every offset. -/
def Obligations.ConstantChipsSum : Prop :=
  ∀ (a : Sample) (bits : List Bool) (o : Nat), bits.length = 1023 → o ≤ 1022 →
    scalarSum (List.replicate 1023 a) bits o = a.toInt * (bits.count true - bits.count false)

/-- R133: a sequence against itself at unit amplitude sums to 1023 at offset 0, the largest magnitude any offset has, and
is detected there with bit 1 at the threshold 200. -/
def Obligations.AutocorrelationPeak : Prop :=
  ∀ (bits : List Bool) (chips : List Sample), bits.length = 1023 →
    chips = bits.map (fun b => if b then 1#8 else BitVec.ofInt 8 (-1)) →
    scalarSum chips bits 0 = 1023 ∧ (∀ o ≤ 1022, (scalarSum chips bits o).natAbs ≤ 1023) ∧
    correlate chips bits 200 = ⟨true, true, 0⟩

/-- R131 (the spec's own inference from R118, R119 and R130): the vectorized sum, corrected from the
AND-sum, is the scalar sum at every offset and vector width. -/
def Obligations.VectorizedSumIsScalarSum : Prop :=
  ∀ vw ∈ Config.vectorWidths, ∀ (chips : List Sample) (bits : List Bool) (o : Nat), chips.length = 1023 →
    bits.length = 1023 → o ≤ 1022 → 2 * andSum vw chips bits o - (chips.map BitVec.toInt).sum = scalarSum chips bits o

/-- R132 (the spec's own inference from R129 to R131): the vectorized strategy leaves the same state as the scalar one in
CSUM, CORR and SCAN, from every state and at every vector width. -/
def Obligations.StrategiesAgree : Prop :=
  ∀ vw ∈ Config.vectorWidths, ∀ s : Block,
    (∀ o ≤ 1022, sumAt (.vectorized vw) o s = sumAt .scalar o s) ∧
    correlateState (.vectorized vw) s = correlateState .scalar s ∧
    scanState (.vectorized vw) s = scanState .scalar s

/-! ### The scanner -/

/-- R139, R140: SCAN stores for every table entry the correlation of the captured sequence with that entry's code, in
table order, and leaves the generator and the correlator as the last entry's GEN and CORR left them: OFS is the offset of
its detection, or 1022 without one (R122), and ACC the sum at OFS. It answers the bitmap of detections. The captured
sequence and the threshold are unchanged. -/
def Obligations.ScanCorrelatesEveryEntry : Prop :=
  decode 0x30000000 = .ok .scan ∧
  ∀ (s : State) (chips : List Sample), MemoryShape s.block → LegalValues s.block → s.chipcnt = 1023 →
    chipsAre s.block chips →
    ∃ (t : State) (d : Word) (last : TapPair) (bits : List Bool), exec .scan s = .next t ∧
      s.tapTable.toList.getLast? = some last ∧ bits = generate last.tap1 last.tap2 ∧
      (∀ (k : Nat) (p : TapPair), s.tapTable.toList[k]? = some p →
        resultEntry t.block k = correlate chips (generate p.tap1 p.tap2) s.thresh.toNat) ∧
      (∀ k < 32, d.getLsbD k = (decide (k < s.tapTable.nsat) && (resultEntry t.block k).det)) ∧
      t.sat.toNat + 1 = s.tapTable.nsat ∧ t.result = correlate chips bits s.thresh.toNat ∧
      t.ofs = (if t.result.det then t.result.offset else 1022) ∧
      t.acc.toInt = scalarSum chips bits t.ofs.toNat ∧ prnIs t.block bits ∧
      t = { s with
        sat := t.sat, tap1 := last.tap1, tap2 := last.tap2, g1 := 0x3FF, g2 := 0x3FF, gcnt := 1023, prn := t.prn
        acc := t.acc, ofs := t.ofs, result := t.result, rdone := true, results := t.results, sdone := true
        responses := s.responses ++ [⟨false, d⟩] }

/-- R141 (the spec's own inference from R140, R99 and R61): a satellite's result depends on CHIP, THRESH and its
own tap pair only: not on its place in the table, on the other entries, or on the generator and correlator before
SCAN. -/
def Obligations.SatellitesAreIndependent : Prop :=
  ∀ (s s' t t' : State) (k k' : Nat) (p : TapPair), s.chip = s'.chip → s.thresh = s'.thresh →
    s.tapTable.toList[k]? = some p → s'.tapTable.toList[k']? = some p → s.chipcnt = 1023 → s'.chipcnt = 1023 →
    exec .scan s = .next t → exec .scan s' = .next t' → resultEntry t.block k = resultEntry t'.block k'

/-- R143 with R85: RDSAT answers SDONE, DET, BIT and OFFSET as one number and changes nothing, or faults with E_SAT. -/
def Obligations.RdsatReadsOneEntry : Prop :=
  ∀ (k : BitVec 5) (s : State),
    decode (0x31#8 ++ 0#19 ++ k) = .ok (.rdsat k) ∧
    (k.toNat < s.tapTable.nsat →
      exec (.rdsat k) s = .next (afterRead (BitVec.ofNat 32 (4096 * bitNat s.sdone +
        2048 * bitNat (resultEntry s.block k.toNat).det + 1024 * bitNat (resultEntry s.block k.toNat).bit +
        (resultEntry s.block k.toNat).offset.toNat)) s)) ∧
    (s.tapTable.nsat ≤ k.toNat → exec (.rdsat k) s = .next (afterFault 4 s))

/-! ### Frames -/

/-- R50: NOP, RDREG, RDPRN, RDCHIP and RDSAT change no state of the block but ERR and CAUSE (what these become is said by
the statements of each command's result and of its faults); every element of every memory reads as before. -/
def Obligations.ReadersFrame : Prop :=
  ∀ (i : Instr) (s t : State), i = .nop ∨ (∃ r, i = .rdreg r) ∨ (∃ e a, i = .rdprn e a) ∨ (∃ a, i = .rdchip a) ∨
    (∃ k, i = .rdsat k) → exec i s = .next t →
      t = { s with err := t.err, cause := t.cause, responses := t.responses } ∧
      (∀ a, t.prn.read a = s.prn.read a) ∧ (∀ a, Memory.read t.chip a = Memory.read s.chip a) ∧
      ∀ k, resultEntry t.block k = resultEntry s.block k

/-- R94 to R99: SETTAP, SELSAT, GINIT, GSTEP and GEN leave CHIP, CHIPCNT, THRESH, ACC, OFS, RESULTS and SDONE, and may
change RDONE and RESULT, which they clear (R30); only SELSAT writes SAT; GINIT, GSTEP and GEN keep the taps; GSTEP keeps every PRN element but PRN[GCNT]. -/
def Obligations.GeneratorFrame : Prop :=
  ∀ s t : State,
    (∀ t1 t2, exec (.settap t1 t2) s = .next t →
      t = { s with
        tap1 := t.tap1, tap2 := t.tap2, g1 := t.g1, g2 := t.g2, gcnt := t.gcnt, prn := t.prn, rdone := t.rdone
        result := t.result, err := t.err, cause := t.cause, responses := t.responses } ∧
      (∀ a, Memory.read t.chip a = Memory.read s.chip a) ∧ ∀ k, resultEntry t.block k = resultEntry s.block k) ∧
    (∀ k, exec (.selsat k) s = .next t →
      t = { s with
        sat := t.sat, tap1 := t.tap1, tap2 := t.tap2, g1 := t.g1, g2 := t.g2, gcnt := t.gcnt, prn := t.prn
        rdone := t.rdone, result := t.result, err := t.err, cause := t.cause, responses := t.responses } ∧
      (∀ a, Memory.read t.chip a = Memory.read s.chip a) ∧ ∀ k, resultEntry t.block k = resultEntry s.block k) ∧
    (∀ i ∈ [Instr.ginit, .gstep, .gen], exec i s = .next t →
      t = { s with
        g1 := t.g1, g2 := t.g2, gcnt := t.gcnt, prn := t.prn, rdone := t.rdone, result := t.result, err := t.err
        cause := t.cause, responses := t.responses } ∧
      (∀ a, Memory.read t.chip a = Memory.read s.chip a) ∧ ∀ k, resultEntry t.block k = resultEntry s.block k) ∧
    (exec .gstep s = .next t → ∀ a ≠ s.gcnt.toNat, t.prn.read a = s.prn.read a)

/-- R110, R111, R113: CLRCHIP, LDCHIP and SETTHR leave the generator, every PRN element, ACC and OFS; SETTHR leaves CHIP;
LDCHIP leaves every CHIP element but CHIP[CHIPCNT] and the threshold; CLRCHIP leaves the threshold. -/
def Obligations.LoadFrame : Prop :=
  ∀ s t : State,
    (∀ v, exec (.setthr v) s = .next t →
      t = { s with
        thresh := t.thresh, rdone := t.rdone, result := t.result, sdone := t.sdone, results := t.results
        responses := t.responses } ∧
      (∀ a, t.prn.read a = s.prn.read a) ∧ ∀ a, Memory.read t.chip a = Memory.read s.chip a) ∧
    (∀ v, exec (.ldchip v) s = .next t →
      t = { s with
        chip := t.chip, chipcnt := t.chipcnt, rdone := t.rdone, result := t.result, sdone := t.sdone
        results := t.results, err := t.err, cause := t.cause, responses := t.responses } ∧
      (∀ a, t.prn.read a = s.prn.read a) ∧
      ∀ a ≠ s.chipcnt.toNat, Memory.read t.chip a = Memory.read s.chip a) ∧
    (exec .clrchip s = .next t →
      t = { s with
        chip := t.chip, chipcnt := t.chipcnt, rdone := t.rdone, result := t.result, sdone := t.sdone
        results := t.results, responses := t.responses } ∧ ∀ a, t.prn.read a = s.prn.read a)

/-- R120, R122, R140: CSUM writes ACC and OFS only, CORR these and RESULT and RDONE; SCAN leaves CHIP, CHIPCNT and
THRESH; every CHIP element reads as before, and CSUM and CORR leave every PRN element and RESULTS entry. -/
def Obligations.CorrelatorAndScannerFrame : Prop :=
  ∀ s t : State,
    (∀ o, exec (.csum o) s = .next t →
      t = { s with acc := t.acc, ofs := t.ofs, err := t.err, cause := t.cause, responses := t.responses } ∧
      (∀ a, t.prn.read a = s.prn.read a) ∧ (∀ a, Memory.read t.chip a = Memory.read s.chip a) ∧
      ∀ k, resultEntry t.block k = resultEntry s.block k) ∧
    (exec .corr s = .next t →
      t = { s with
        acc := t.acc, ofs := t.ofs, result := t.result, rdone := t.rdone, err := t.err, cause := t.cause
        responses := t.responses } ∧
      (∀ a, t.prn.read a = s.prn.read a) ∧ (∀ a, Memory.read t.chip a = Memory.read s.chip a) ∧
      ∀ k, resultEntry t.block k = resultEntry s.block k) ∧
    (exec .scan s = .next t →
      t = { s with
        sat := t.sat, tap1 := t.tap1, tap2 := t.tap2, g1 := t.g1, g2 := t.g2, gcnt := t.gcnt, prn := t.prn
        acc := t.acc, ofs := t.ofs, result := t.result, rdone := t.rdone, results := t.results, sdone := t.sdone
        err := t.err, cause := t.cause, responses := t.responses } ∧
      ∀ a, Memory.read t.chip a = Memory.read s.chip a)

/-- R52: no command other than LDCHIP writes CHIP, and CLRCHIP only forgets it. -/
def Obligations.OnlyLdchipWritesChip : Prop :=
  ∀ (i : Instr) (s t : State), exec i s = .next t → (∀ v, i ≠ .ldchip v) →
    (i ≠ .clrchip → t.chipcnt = s.chipcnt ∧ ∀ a, Memory.read t.chip a = Memory.read s.chip a) ∧
    (i = .clrchip → t.chipcnt = 0 ∧ ∀ a, Memory.read t.chip a = none)

/-- R34: no command writes TAPTABLE and reset does not change it. -/
def Obligations.TapTableNeverChanges : Prop :=
  ∀ s t : State, step s = .next t → t.tapTable = s.tapTable

/-- R30, R31: a command that completes and can change CHIP, PRN or THRESH leaves RDONE = 0 and RESULT = 0, and one that
can change CHIP or THRESH leaves SDONE = 0 and every entry 0 as well; a faulting command clears nothing. -/
def Obligations.InputsInvalidateResults : Prop :=
  ∀ (i : Instr) (s t : State) (d : Word), exec i s = .next t →
    (t.responses = s.responses ++ [⟨false, d⟩] →
      ((∃ t1 t2, i = .settap t1 t2) ∨ (∃ k, i = .selsat k) ∨ i = .ginit ∨ i = .gstep ∨ i = .gen ∨ i = .clrchip ∨
        (∃ v, i = .ldchip v) ∨ (∃ v, i = .setthr v) → t.rdone = false ∧ t.result = ⟨false, false, 0⟩) ∧
      (i = .clrchip ∨ (∃ v, i = .ldchip v) ∨ (∃ v, i = .setthr v) →
        t.sdone = false ∧ ∀ k, resultEntry t.block k = ⟨false, false, 0⟩)) ∧
    (t.responses = s.responses ++ [⟨true, d⟩] →
      t.rdone = s.rdone ∧ t.result = s.result ∧ t.sdone = s.sdone ∧ ∀ k, resultEntry t.block k = resultEntry s.block k)

/-! ### Invariants -/

/-- R40 with R39, R23, R24 and R32: the state after reset meets every invariant, for every table that is a
configuration. -/
def Obligations.ResetMeetsInvariants : Prop :=
  (LegalValues State.reset.block ∧ MemoryShape State.reset.block ∧ GeneratorInvariant State.reset.block ∧
    ResultInvariant State.reset.block) ∧
  ∀ table : TapTable, table.nsat ≤ 32 →
    (∀ p ∈ table.toList, (1 ≤ p.tap1.toNat ∧ p.tap1.toNat ≤ 10) ∧ (1 ≤ p.tap2.toNat ∧ p.tap2.toNat ≤ 10)) →
    LegalValues (State.resetWith table).block ∧ MemoryShape (State.resetWith table).block ∧
      GeneratorInvariant (State.resetWith table).block ∧ ResultInvariant (State.resetWith table).block

/-- R39 (the spec's own inference from every command's rule): every step keeps every register and field at a legal
value. -/
def Obligations.StepKeepsLegalValues : Prop :=
  ∀ s t : State, LegalValues s.block → step s = .next t → LegalValues t.block

/-- R23, R26, R45: every step keeps the memories canonical, holding exactly the elements the counters say. -/
def Obligations.StepKeepsMemoryShape : Prop :=
  ∀ s t : State, MemoryShape s.block → step s = .next t → MemoryShape t.block

/-- R24 (the spec's own inference from R94, R95, R97 and R98): every step keeps PRN, G1 and G2 a function of the taps and
of GCNT. -/
def Obligations.StepKeepsGeneratorInvariant : Prop :=
  ∀ s t : State, GeneratorInvariant s.block → step s = .next t → GeneratorInvariant t.block

/-- R32 (the spec's own inference from R30, R31, R122 and R140): every step keeps what RDONE and SDONE
say: the stored results are those of the present inputs. -/
def Obligations.StepKeepsResultInvariant : Prop :=
  ∀ s t : State, ResultInvariant s.block → step s = .next t → ResultInvariant t.block

/-- R54, R66, R124: from a state with legal values and well-shaped memories every step answers a next state: no command,
no word and no data makes the machine stop. -/
def Obligations.StepAlwaysAnswers : Prop :=
  ∀ s : State, LegalValues s.block → MemoryShape s.block → ∃ t, step s = .next t

/-! ### Pseudo-instructions -/

/-- R87: CORRTAP t1, t2 is the source's correlate(chip, generate(t1, t2)). -/
def Obligations.CorrtapIsCorrelateOfGenerate : Prop :=
  ∀ (t1 t2 : BitVec 4) (s : State) (chips : List Sample), (1 ≤ t1.toNat ∧ t1.toNat ≤ 10) →
    (1 ≤ t2.toNat ∧ t2.toNat ≤ 10) → MemoryShape s.block → s.chipcnt = 1023 → chipsAre s.block chips →
      ∃ t, execAll (expand (.corrtap t1 t2)) s = .next t ∧ t.rdone = true ∧
        t.result = correlate chips (generate t1 t2) s.thresh.toNat ∧ chipsAre t.block chips

/-- R87, R176: LOAD of 1023 samples leaves exactly them in CHIP, CHIP[0] first, from every state. -/
def Obligations.LoadFillsChip : Prop :=
  ∀ (s : State) (chips : List Sample), chips.length = 1023 →
    ∃ t, execAll (expand (.load chips)) s = .next t ∧ t.chipcnt = 1023 ∧ chipsAre t.block chips
end

