-- ==== Sys2Proof/Laws/Memory.lean ====
section
/-! SUPPORT. Laws of the element-indexed memories: read after write, the canonical form is kept, and a memory that holds
exactly the elements 0..n − 1 read as a list. -/

namespace Sys2Proof.Machine

variable {α : Type}

/-! ### Reading after writing -/

@[simp] theorem Memory.read_nil (a : Nat) : Memory.read ([] : Memory α) a = none := rfl

theorem Memory.read_write (m : Memory α) (a b : Nat) (v : α) :
    (m.write a v).read b = if b = a then some v else m.read b := by
  induction m with
  | nil => simp [Memory.write, Memory.read]
  | cons e m ih =>
    obtain ⟨x, u⟩ := e
    simp only [Memory.write]
    split_ifs <;> simp only [Memory.read, ih] <;> split_ifs <;> first | rfl | omega

@[simp] theorem Memory.read_write_same (m : Memory α) (a : Nat) (v : α) : (m.write a v).read a = some v := by
  simp [Memory.read_write]

theorem Memory.read_write_other (m : Memory α) {a b : Nat} (v : α) (h : b ≠ a) : (m.write a v).read b = m.read b := by
  simp [Memory.read_write, h]

theorem Memory.read_erase (m : Memory α) (a b : Nat) :
    (m.erase a).read b = if b = a then none else m.read b := by
  unfold Memory.erase
  induction m with
  | nil => simp
  | cons e m ih =>
    obtain ⟨x, u⟩ := e
    by_cases hx : x = a
    · subst hx
      simp only [List.filter, bne_self_eq_false, ih, Memory.read]
      split_ifs <;> rfl
    · simp only [List.filter, bne_iff_ne.2 hx, ih, Memory.read]
      split_ifs <;> first | rfl | omega

theorem Memory.readOver_writeOver [DecidableEq α] (d : α) (m : Memory α) (a b : Nat) (v : α) :
    Memory.readOver d (Memory.writeOver d m a v) b = if b = a then v else Memory.readOver d m b := by
  unfold Memory.readOver Memory.writeOver
  by_cases hv : v = d <;> by_cases hb : b = a <;> simp [hv, hb, Memory.read_erase, Memory.read_write]

@[simp] theorem Memory.readOver_nil (d : α) (a : Nat) : Memory.readOver d [] a = d := rfl

/-! ### The canonical form -/

theorem Memory.keys_write (m : Memory α) (a : Nat) (v : α) (x : Nat) :
    x ∈ (m.write a v).map Prod.fst ↔ x = a ∨ x ∈ m.map Prod.fst := by
  induction m with
  | nil => simp [Memory.write]
  | cons e m ih =>
    obtain ⟨y, u⟩ := e
    simp only [Memory.write]
    split_ifs with h1 h2
    · simp
    · subst h2; simp
    · simp only [List.map_cons, List.mem_cons, ih]; tauto

theorem Memory.wf_nil : Memory.wf ([] : Memory α) := List.Pairwise.nil

/-- A write keeps the canonical form. -/
theorem Memory.wf_write {m : Memory α} (h : m.wf) (a : Nat) (v : α) : (m.write a v).wf := by
  induction m with
  | nil => simp [Memory.write, Memory.wf]
  | cons e m ih =>
    obtain ⟨y, u⟩ := e
    simp only [Memory.wf, List.map_cons, List.pairwise_cons] at h
    simp only [Memory.write]
    split_ifs with h1 h2
    · simp only [Memory.wf, List.map_cons, List.pairwise_cons, List.mem_cons]
      refine ⟨?_, h⟩
      rintro x (rfl | hx)
      · exact h1
      · exact h1.trans (h.1 x hx)
    · subst h2
      simpa only [Memory.wf, List.map_cons, List.pairwise_cons] using h
    · simp only [Memory.wf, List.map_cons, List.pairwise_cons]
      refine ⟨fun x hx => ?_, ih h.2⟩
      rcases (Memory.keys_write m a v x).1 hx with rfl | hx
      · omega
      · exact h.1 x hx

/-- Erasing keeps the canonical form. -/
theorem Memory.wf_erase {m : Memory α} (h : m.wf) (a : Nat) : (m.erase a).wf :=
  List.Pairwise.sublist (List.Sublist.map _ List.filter_sublist) h

theorem Memory.mem_write {m : Memory α} {a : Nat} {v : α} {e : Nat × α} (h : e ∈ m.write a v) : e = (a, v) ∨ e ∈ m := by
  induction m with
  | nil => simpa [Memory.write] using h
  | cons f m ih =>
    obtain ⟨y, u⟩ := f
    simp only [Memory.write] at h
    split_ifs at h
    · simpa using h
    · simp only [List.mem_cons] at h ⊢; tauto
    · simp only [List.mem_cons] at h ⊢
      rcases h with h | h
      · exact .inr (.inl h)
      · rcases ih h with h | h <;> tauto

/-- A write to a memory whose unlisted elements read as d keeps that canonical form. -/
theorem Memory.wfOver_writeOver [DecidableEq α] {d : α} {m : Memory α} (h : m.wfOver d) (a : Nat) (v : α) :
    (Memory.writeOver d m a v).wfOver d := by
  unfold Memory.writeOver
  split_ifs with hv
  · exact ⟨Memory.wf_erase h.1 a, fun e he => h.2 e (List.mem_filter.1 he).1⟩
  · refine ⟨Memory.wf_write h.1 a v, fun e he => ?_⟩
    rcases Memory.mem_write he with rfl | he
    · exact hv
    · exact h.2 e he

/-! ### Memories that hold exactly the elements 0..n − 1 -/

theorem Memory.read_isSome_iff (m : Memory α) (a : Nat) : (∃ v, m.read a = some v) ↔ a ∈ m.map Prod.fst := by
  induction m with
  | nil => simp
  | cons e m ih =>
    obtain ⟨x, u⟩ := e
    simp only [Memory.read, List.map_cons, List.mem_cons]
    split_ifs with h
    · simp [h]
    · simp [h, ih]

/-- The canonical form and the set of elements with a value fix the list of indices. -/
theorem Memory.keys_eq_range {m : Memory α} (h : m.wf) {n : Nat} (he : ∀ i, (∃ v, m.read i = some v) ↔ i < n) :
    m.map Prod.fst = List.range n := by
  refine List.Perm.eq_of_pairwise (le := (· < ·)) (fun a b _ _ hab hba => absurd hab (by omega)) h
    List.pairwise_lt_range ?_
  refine (List.perm_ext_iff_of_nodup (h.imp (fun h => Nat.ne_of_lt h)) List.nodup_range).2 fun a => ?_
  rw [← Memory.read_isSome_iff, he, List.mem_range]

theorem Memory.read_of_keys_aux (m : Memory α) (k n : Nat) (h : m.map Prod.fst = List.range' k n) (i : Nat) :
    m.read (k + i) = (m.map Prod.snd)[i]? := by
  induction m generalizing k n i with
  | nil => simp
  | cons e m ih =>
    obtain ⟨x, u⟩ := e
    cases n with
    | zero => simp at h
    | succ n =>
      simp only [List.map_cons, List.range'_succ, List.cons.injEq] at h
      obtain ⟨rfl, h⟩ := h
      cases i with
      | zero => simp [Memory.read]
      | succ i =>
        have := ih (x + 1) n h i
        simp only [Memory.read, List.map_cons, List.getElem?_cons_succ]
        rw [if_neg (by omega), ← this]
        congr 1; omega

/-- A memory with the indices 0..n − 1 reads as its list of values. -/
theorem Memory.read_of_keys {m : Memory α} {n : Nat} (h : m.map Prod.fst = List.range n) (i : Nat) :
    m.read i = (m.map Prod.snd)[i]? := by
  have := Memory.read_of_keys_aux m 0 n (by rw [h, List.range_eq_range']) i
  simpa using this

theorem Memory.keys_length {m : Memory α} {n : Nat} (h : m.map Prod.fst = List.range n) : m.length = n := by
  simpa using congrArg List.length h

/-- Writing the first element that has no value appends it. -/
theorem Memory.write_append (m : Memory α) (n : Nat) (v : α) (h : ∀ x ∈ m.map Prod.fst, x < n) :
    m.write n v = m ++ [(n, v)] := by
  induction m with
  | nil => rfl
  | cons e m ih =>
    obtain ⟨x, u⟩ := e
    have hx : x < n := h x (by simp)
    simp only [Memory.write]
    rw [if_neg (by omega), if_neg (by omega), ih fun y hy => h y (by simp only [List.map_cons, List.mem_cons]; exact .inr hy)]
    rfl

theorem Memory.sequence_eq_some {m : Memory α} {n : Nat} {l : List α} :
    m.sequence n = some l ↔ m.map Prod.fst = List.range n ∧ m.map Prod.snd = l := by
  unfold Memory.sequence
  split_ifs with h <;> simp [h]

/-- What the whole sequence is, when the memory has one: n elements, each read at its index. -/
theorem Memory.sequence_spec {m : Memory α} {n : Nat} {l : List α} (h : m.sequence n = some l) :
    l.length = n ∧ ∀ i, m.read i = l[i]? := by
  obtain ⟨hk, rfl⟩ := Memory.sequence_eq_some.1 h
  exact ⟨by simpa using Memory.keys_length hk, Memory.read_of_keys hk⟩

/-- A canonical memory whose elements with a value are exactly 0..n − 1 has a whole sequence. -/
theorem Memory.sequence_of_elements {m : Memory α} (h : m.wf) {n : Nat}
    (he : ∀ i, (∃ v, m.read i = some v) ↔ i < n) : ∃ l, m.sequence n = some l :=
  ⟨_, Memory.sequence_eq_some.2 ⟨Memory.keys_eq_range h he, rfl⟩⟩

/-- The sequence of a canonical memory is the list its reads give. -/
theorem Memory.sequence_of_reads {m : Memory α} (h : m.wf) {n : Nat} {l : List α} (hl : l.length = n)
    (he : ∀ i, (∃ v, m.read i = some v) ↔ i < n) (hr : ∀ i < n, m.read i = l[i]?) : m.sequence n = some l := by
  obtain ⟨l', hl'⟩ := Memory.sequence_of_elements h he
  obtain ⟨hlen, hread⟩ := Memory.sequence_spec hl'
  rw [hl']
  congr 1
  refine List.ext_getElem? fun i => ?_
  by_cases hi : i < n
  · rw [← hread, hr i hi]
  · rw [List.getElem?_eq_none (by omega), List.getElem?_eq_none (by omega)]

end Sys2Proof.Machine
end

