-- ==== Sys2Proof/Laws/State.lean ====
section
/-! SUPPORT. One lemma per field per state update: what each named operation of Ops leaves in each field. -/

namespace Sys2Proof.Machine

/-! ### recordCause -/

@[simp] theorem recordCause_g1 (c : Cause) (s : Block) : (recordCause c s).g1 = s.g1 := by
  unfold recordCause; split <;> rfl
@[simp] theorem recordCause_g2 (c : Cause) (s : Block) : (recordCause c s).g2 = s.g2 := by
  unfold recordCause; split <;> rfl
@[simp] theorem recordCause_tap1 (c : Cause) (s : Block) : (recordCause c s).tap1 = s.tap1 := by
  unfold recordCause; split <;> rfl
@[simp] theorem recordCause_tap2 (c : Cause) (s : Block) : (recordCause c s).tap2 = s.tap2 := by
  unfold recordCause; split <;> rfl
@[simp] theorem recordCause_sat (c : Cause) (s : Block) : (recordCause c s).sat = s.sat := by
  unfold recordCause; split <;> rfl
@[simp] theorem recordCause_gcnt (c : Cause) (s : Block) : (recordCause c s).gcnt = s.gcnt := by
  unfold recordCause; split <;> rfl
@[simp] theorem recordCause_prn (c : Cause) (s : Block) : (recordCause c s).prn = s.prn := by
  unfold recordCause; split <;> rfl
@[simp] theorem recordCause_chipcnt (c : Cause) (s : Block) : (recordCause c s).chipcnt = s.chipcnt := by
  unfold recordCause; split <;> rfl
@[simp] theorem recordCause_chip (c : Cause) (s : Block) : (recordCause c s).chip = s.chip := by
  unfold recordCause; split <;> rfl
@[simp] theorem recordCause_thresh (c : Cause) (s : Block) : (recordCause c s).thresh = s.thresh := by
  unfold recordCause; split <;> rfl
@[simp] theorem recordCause_acc (c : Cause) (s : Block) : (recordCause c s).acc = s.acc := by
  unfold recordCause; split <;> rfl
@[simp] theorem recordCause_ofs (c : Cause) (s : Block) : (recordCause c s).ofs = s.ofs := by
  unfold recordCause; split <;> rfl
@[simp] theorem recordCause_result (c : Cause) (s : Block) : (recordCause c s).result = s.result := by
  unfold recordCause; split <;> rfl
@[simp] theorem recordCause_rdone (c : Cause) (s : Block) : (recordCause c s).rdone = s.rdone := by
  unfold recordCause; split <;> rfl
@[simp] theorem recordCause_results (c : Cause) (s : Block) : (recordCause c s).results = s.results := by
  unfold recordCause; split <;> rfl
@[simp] theorem recordCause_sdone (c : Cause) (s : Block) : (recordCause c s).sdone = s.sdone := by
  unfold recordCause; split <;> rfl
@[simp] theorem recordCause_err (c : Cause) (s : Block) : (recordCause c s).err = true := by
  unfold recordCause; split <;> simp_all
@[simp] theorem recordCause_cause (c : Cause) (s : Block) :
    (recordCause c s).cause = if s.err then s.cause else c.code := by
  unfold recordCause; split <;> simp_all
@[simp] theorem recordCause_tapTable (c : Cause) (s : Block) : (recordCause c s).tapTable = s.tapTable := by
  unfold recordCause; split <;> rfl

/-! ### clearResult -/

@[simp] theorem clearResult_g1 (s : Block) : (clearResult s).g1 = s.g1 := rfl
@[simp] theorem clearResult_g2 (s : Block) : (clearResult s).g2 = s.g2 := rfl
@[simp] theorem clearResult_tap1 (s : Block) : (clearResult s).tap1 = s.tap1 := rfl
@[simp] theorem clearResult_tap2 (s : Block) : (clearResult s).tap2 = s.tap2 := rfl
@[simp] theorem clearResult_sat (s : Block) : (clearResult s).sat = s.sat := rfl
@[simp] theorem clearResult_gcnt (s : Block) : (clearResult s).gcnt = s.gcnt := rfl
@[simp] theorem clearResult_prn (s : Block) : (clearResult s).prn = s.prn := rfl
@[simp] theorem clearResult_chipcnt (s : Block) : (clearResult s).chipcnt = s.chipcnt := rfl
@[simp] theorem clearResult_chip (s : Block) : (clearResult s).chip = s.chip := rfl
@[simp] theorem clearResult_thresh (s : Block) : (clearResult s).thresh = s.thresh := rfl
@[simp] theorem clearResult_acc (s : Block) : (clearResult s).acc = s.acc := rfl
@[simp] theorem clearResult_ofs (s : Block) : (clearResult s).ofs = s.ofs := rfl
@[simp] theorem clearResult_result (s : Block) : (clearResult s).result = Detection.absent := rfl
@[simp] theorem clearResult_rdone (s : Block) : (clearResult s).rdone = false := rfl
@[simp] theorem clearResult_results (s : Block) : (clearResult s).results = s.results := rfl
@[simp] theorem clearResult_sdone (s : Block) : (clearResult s).sdone = s.sdone := rfl
@[simp] theorem clearResult_err (s : Block) : (clearResult s).err = s.err := rfl
@[simp] theorem clearResult_cause (s : Block) : (clearResult s).cause = s.cause := rfl
@[simp] theorem clearResult_tapTable (s : Block) : (clearResult s).tapTable = s.tapTable := rfl

/-! ### clearResults -/

@[simp] theorem clearResults_g1 (s : Block) : (clearResults s).g1 = s.g1 := rfl
@[simp] theorem clearResults_g2 (s : Block) : (clearResults s).g2 = s.g2 := rfl
@[simp] theorem clearResults_tap1 (s : Block) : (clearResults s).tap1 = s.tap1 := rfl
@[simp] theorem clearResults_tap2 (s : Block) : (clearResults s).tap2 = s.tap2 := rfl
@[simp] theorem clearResults_sat (s : Block) : (clearResults s).sat = s.sat := rfl
@[simp] theorem clearResults_gcnt (s : Block) : (clearResults s).gcnt = s.gcnt := rfl
@[simp] theorem clearResults_prn (s : Block) : (clearResults s).prn = s.prn := rfl
@[simp] theorem clearResults_chipcnt (s : Block) : (clearResults s).chipcnt = s.chipcnt := rfl
@[simp] theorem clearResults_chip (s : Block) : (clearResults s).chip = s.chip := rfl
@[simp] theorem clearResults_thresh (s : Block) : (clearResults s).thresh = s.thresh := rfl
@[simp] theorem clearResults_acc (s : Block) : (clearResults s).acc = s.acc := rfl
@[simp] theorem clearResults_ofs (s : Block) : (clearResults s).ofs = s.ofs := rfl
@[simp] theorem clearResults_result (s : Block) : (clearResults s).result = Detection.absent := rfl
@[simp] theorem clearResults_rdone (s : Block) : (clearResults s).rdone = false := rfl
@[simp] theorem clearResults_results (s : Block) : (clearResults s).results = [] := rfl
@[simp] theorem clearResults_sdone (s : Block) : (clearResults s).sdone = false := rfl
@[simp] theorem clearResults_err (s : Block) : (clearResults s).err = s.err := rfl
@[simp] theorem clearResults_cause (s : Block) : (clearResults s).cause = s.cause := rfl
@[simp] theorem clearResults_tapTable (s : Block) : (clearResults s).tapTable = s.tapTable := rfl

/-! ### startGenerator -/

@[simp] theorem startGenerator_g1 (s : Block) : (startGenerator s).g1 = 0x3FF#10 := rfl
@[simp] theorem startGenerator_g2 (s : Block) : (startGenerator s).g2 = 0x3FF#10 := rfl
@[simp] theorem startGenerator_tap1 (s : Block) : (startGenerator s).tap1 = s.tap1 := rfl
@[simp] theorem startGenerator_tap2 (s : Block) : (startGenerator s).tap2 = s.tap2 := rfl
@[simp] theorem startGenerator_sat (s : Block) : (startGenerator s).sat = s.sat := rfl
@[simp] theorem startGenerator_gcnt (s : Block) : (startGenerator s).gcnt = 0#10 := rfl
@[simp] theorem startGenerator_prn (s : Block) : (startGenerator s).prn = [] := rfl
@[simp] theorem startGenerator_chipcnt (s : Block) : (startGenerator s).chipcnt = s.chipcnt := rfl
@[simp] theorem startGenerator_chip (s : Block) : (startGenerator s).chip = s.chip := rfl
@[simp] theorem startGenerator_thresh (s : Block) : (startGenerator s).thresh = s.thresh := rfl
@[simp] theorem startGenerator_acc (s : Block) : (startGenerator s).acc = s.acc := rfl
@[simp] theorem startGenerator_ofs (s : Block) : (startGenerator s).ofs = s.ofs := rfl
@[simp] theorem startGenerator_result (s : Block) : (startGenerator s).result = Detection.absent := rfl
@[simp] theorem startGenerator_rdone (s : Block) : (startGenerator s).rdone = false := rfl
@[simp] theorem startGenerator_results (s : Block) : (startGenerator s).results = s.results := rfl
@[simp] theorem startGenerator_sdone (s : Block) : (startGenerator s).sdone = s.sdone := rfl
@[simp] theorem startGenerator_err (s : Block) : (startGenerator s).err = s.err := rfl
@[simp] theorem startGenerator_cause (s : Block) : (startGenerator s).cause = s.cause := rfl
@[simp] theorem startGenerator_tapTable (s : Block) : (startGenerator s).tapTable = s.tapTable := rfl

/-! ### loadTaps -/

@[simp] theorem loadTaps_g1 (p : TapPair) (s : Block) : (loadTaps p s).g1 = 0x3FF#10 := rfl
@[simp] theorem loadTaps_g2 (p : TapPair) (s : Block) : (loadTaps p s).g2 = 0x3FF#10 := rfl
@[simp] theorem loadTaps_tap1 (p : TapPair) (s : Block) : (loadTaps p s).tap1 = p.tap1 := rfl
@[simp] theorem loadTaps_tap2 (p : TapPair) (s : Block) : (loadTaps p s).tap2 = p.tap2 := rfl
@[simp] theorem loadTaps_sat (p : TapPair) (s : Block) : (loadTaps p s).sat = s.sat := rfl
@[simp] theorem loadTaps_gcnt (p : TapPair) (s : Block) : (loadTaps p s).gcnt = 0#10 := rfl
@[simp] theorem loadTaps_prn (p : TapPair) (s : Block) : (loadTaps p s).prn = [] := rfl
@[simp] theorem loadTaps_chipcnt (p : TapPair) (s : Block) : (loadTaps p s).chipcnt = s.chipcnt := rfl
@[simp] theorem loadTaps_chip (p : TapPair) (s : Block) : (loadTaps p s).chip = s.chip := rfl
@[simp] theorem loadTaps_thresh (p : TapPair) (s : Block) : (loadTaps p s).thresh = s.thresh := rfl
@[simp] theorem loadTaps_acc (p : TapPair) (s : Block) : (loadTaps p s).acc = s.acc := rfl
@[simp] theorem loadTaps_ofs (p : TapPair) (s : Block) : (loadTaps p s).ofs = s.ofs := rfl
@[simp] theorem loadTaps_result (p : TapPair) (s : Block) : (loadTaps p s).result = Detection.absent := rfl
@[simp] theorem loadTaps_rdone (p : TapPair) (s : Block) : (loadTaps p s).rdone = false := rfl
@[simp] theorem loadTaps_results (p : TapPair) (s : Block) : (loadTaps p s).results = s.results := rfl
@[simp] theorem loadTaps_sdone (p : TapPair) (s : Block) : (loadTaps p s).sdone = s.sdone := rfl
@[simp] theorem loadTaps_err (p : TapPair) (s : Block) : (loadTaps p s).err = s.err := rfl
@[simp] theorem loadTaps_cause (p : TapPair) (s : Block) : (loadTaps p s).cause = s.cause := rfl
@[simp] theorem loadTaps_tapTable (p : TapPair) (s : Block) : (loadTaps p s).tapTable = s.tapTable := rfl

/-! ### selectEntry -/

@[simp] theorem selectEntry_g1 (k : Nat) (p : TapPair) (s : Block) : (selectEntry k p s).g1 = 0x3FF#10 := rfl
@[simp] theorem selectEntry_g2 (k : Nat) (p : TapPair) (s : Block) : (selectEntry k p s).g2 = 0x3FF#10 := rfl
@[simp] theorem selectEntry_tap1 (k : Nat) (p : TapPair) (s : Block) : (selectEntry k p s).tap1 = p.tap1 := rfl
@[simp] theorem selectEntry_tap2 (k : Nat) (p : TapPair) (s : Block) : (selectEntry k p s).tap2 = p.tap2 := rfl
@[simp] theorem selectEntry_sat (k : Nat) (p : TapPair) (s : Block) :
    (selectEntry k p s).sat = BitVec.ofNat 5 k := rfl
@[simp] theorem selectEntry_gcnt (k : Nat) (p : TapPair) (s : Block) : (selectEntry k p s).gcnt = 0#10 := rfl
@[simp] theorem selectEntry_prn (k : Nat) (p : TapPair) (s : Block) : (selectEntry k p s).prn = [] := rfl
@[simp] theorem selectEntry_chipcnt (k : Nat) (p : TapPair) (s : Block) :
    (selectEntry k p s).chipcnt = s.chipcnt := rfl
@[simp] theorem selectEntry_chip (k : Nat) (p : TapPair) (s : Block) : (selectEntry k p s).chip = s.chip := rfl
@[simp] theorem selectEntry_thresh (k : Nat) (p : TapPair) (s : Block) : (selectEntry k p s).thresh = s.thresh := rfl
@[simp] theorem selectEntry_acc (k : Nat) (p : TapPair) (s : Block) : (selectEntry k p s).acc = s.acc := rfl
@[simp] theorem selectEntry_ofs (k : Nat) (p : TapPair) (s : Block) : (selectEntry k p s).ofs = s.ofs := rfl
@[simp] theorem selectEntry_result (k : Nat) (p : TapPair) (s : Block) :
    (selectEntry k p s).result = Detection.absent := rfl
@[simp] theorem selectEntry_rdone (k : Nat) (p : TapPair) (s : Block) : (selectEntry k p s).rdone = false := rfl
@[simp] theorem selectEntry_results (k : Nat) (p : TapPair) (s : Block) :
    (selectEntry k p s).results = s.results := rfl
@[simp] theorem selectEntry_sdone (k : Nat) (p : TapPair) (s : Block) : (selectEntry k p s).sdone = s.sdone := rfl
@[simp] theorem selectEntry_err (k : Nat) (p : TapPair) (s : Block) : (selectEntry k p s).err = s.err := rfl
@[simp] theorem selectEntry_cause (k : Nat) (p : TapPair) (s : Block) : (selectEntry k p s).cause = s.cause := rfl
@[simp] theorem selectEntry_tapTable (k : Nat) (p : TapPair) (s : Block) :
    (selectEntry k p s).tapTable = s.tapTable := rfl

/-! ### generatorStep -/

@[simp] theorem generatorStep_g1 (s : Block) : (generatorStep s).g1 = next1 s.g1 := rfl
@[simp] theorem generatorStep_g2 (s : Block) : (generatorStep s).g2 = next2 s.g2 := rfl
@[simp] theorem generatorStep_tap1 (s : Block) : (generatorStep s).tap1 = s.tap1 := rfl
@[simp] theorem generatorStep_tap2 (s : Block) : (generatorStep s).tap2 = s.tap2 := rfl
@[simp] theorem generatorStep_sat (s : Block) : (generatorStep s).sat = s.sat := rfl
@[simp] theorem generatorStep_gcnt (s : Block) : (generatorStep s).gcnt = s.gcnt + 1 := rfl
@[simp] theorem generatorStep_prn (s : Block) : (generatorStep s).prn = s.prn.write s.gcnt.toNat (nextBit s) := rfl
@[simp] theorem generatorStep_chipcnt (s : Block) : (generatorStep s).chipcnt = s.chipcnt := rfl
@[simp] theorem generatorStep_chip (s : Block) : (generatorStep s).chip = s.chip := rfl
@[simp] theorem generatorStep_thresh (s : Block) : (generatorStep s).thresh = s.thresh := rfl
@[simp] theorem generatorStep_acc (s : Block) : (generatorStep s).acc = s.acc := rfl
@[simp] theorem generatorStep_ofs (s : Block) : (generatorStep s).ofs = s.ofs := rfl
@[simp] theorem generatorStep_result (s : Block) : (generatorStep s).result = Detection.absent := rfl
@[simp] theorem generatorStep_rdone (s : Block) : (generatorStep s).rdone = false := rfl
@[simp] theorem generatorStep_results (s : Block) : (generatorStep s).results = s.results := rfl
@[simp] theorem generatorStep_sdone (s : Block) : (generatorStep s).sdone = s.sdone := rfl
@[simp] theorem generatorStep_err (s : Block) : (generatorStep s).err = s.err := rfl
@[simp] theorem generatorStep_cause (s : Block) : (generatorStep s).cause = s.cause := rfl
@[simp] theorem generatorStep_tapTable (s : Block) : (generatorStep s).tapTable = s.tapTable := rfl

/-! ### storeSum -/

@[simp] theorem storeSum_g1 (z : Int) (o : Nat) (s : Block) : (storeSum z o s).g1 = s.g1 := rfl
@[simp] theorem storeSum_g2 (z : Int) (o : Nat) (s : Block) : (storeSum z o s).g2 = s.g2 := rfl
@[simp] theorem storeSum_tap1 (z : Int) (o : Nat) (s : Block) : (storeSum z o s).tap1 = s.tap1 := rfl
@[simp] theorem storeSum_tap2 (z : Int) (o : Nat) (s : Block) : (storeSum z o s).tap2 = s.tap2 := rfl
@[simp] theorem storeSum_sat (z : Int) (o : Nat) (s : Block) : (storeSum z o s).sat = s.sat := rfl
@[simp] theorem storeSum_gcnt (z : Int) (o : Nat) (s : Block) : (storeSum z o s).gcnt = s.gcnt := rfl
@[simp] theorem storeSum_prn (z : Int) (o : Nat) (s : Block) : (storeSum z o s).prn = s.prn := rfl
@[simp] theorem storeSum_chipcnt (z : Int) (o : Nat) (s : Block) : (storeSum z o s).chipcnt = s.chipcnt := rfl
@[simp] theorem storeSum_chip (z : Int) (o : Nat) (s : Block) : (storeSum z o s).chip = s.chip := rfl
@[simp] theorem storeSum_thresh (z : Int) (o : Nat) (s : Block) : (storeSum z o s).thresh = s.thresh := rfl
@[simp] theorem storeSum_acc (z : Int) (o : Nat) (s : Block) : (storeSum z o s).acc = BitVec.ofInt 18 z := rfl
@[simp] theorem storeSum_ofs (z : Int) (o : Nat) (s : Block) : (storeSum z o s).ofs = BitVec.ofNat 10 o := rfl
@[simp] theorem storeSum_result (z : Int) (o : Nat) (s : Block) : (storeSum z o s).result = s.result := rfl
@[simp] theorem storeSum_rdone (z : Int) (o : Nat) (s : Block) : (storeSum z o s).rdone = s.rdone := rfl
@[simp] theorem storeSum_results (z : Int) (o : Nat) (s : Block) : (storeSum z o s).results = s.results := rfl
@[simp] theorem storeSum_sdone (z : Int) (o : Nat) (s : Block) : (storeSum z o s).sdone = s.sdone := rfl
@[simp] theorem storeSum_err (z : Int) (o : Nat) (s : Block) : (storeSum z o s).err = s.err := rfl
@[simp] theorem storeSum_cause (z : Int) (o : Nat) (s : Block) : (storeSum z o s).cause = s.cause := rfl
@[simp] theorem storeSum_tapTable (z : Int) (o : Nat) (s : Block) : (storeSum z o s).tapTable = s.tapTable := rfl

/-! ### storeSearch -/

@[simp] theorem storeSearch_g1 (r : Search) (s : Block) : (storeSearch r s).g1 = s.g1 := rfl
@[simp] theorem storeSearch_g2 (r : Search) (s : Block) : (storeSearch r s).g2 = s.g2 := rfl
@[simp] theorem storeSearch_tap1 (r : Search) (s : Block) : (storeSearch r s).tap1 = s.tap1 := rfl
@[simp] theorem storeSearch_tap2 (r : Search) (s : Block) : (storeSearch r s).tap2 = s.tap2 := rfl
@[simp] theorem storeSearch_sat (r : Search) (s : Block) : (storeSearch r s).sat = s.sat := rfl
@[simp] theorem storeSearch_gcnt (r : Search) (s : Block) : (storeSearch r s).gcnt = s.gcnt := rfl
@[simp] theorem storeSearch_prn (r : Search) (s : Block) : (storeSearch r s).prn = s.prn := rfl
@[simp] theorem storeSearch_chipcnt (r : Search) (s : Block) : (storeSearch r s).chipcnt = s.chipcnt := rfl
@[simp] theorem storeSearch_chip (r : Search) (s : Block) : (storeSearch r s).chip = s.chip := rfl
@[simp] theorem storeSearch_thresh (r : Search) (s : Block) : (storeSearch r s).thresh = s.thresh := rfl
@[simp] theorem storeSearch_acc (r : Search) (s : Block) : (storeSearch r s).acc = BitVec.ofInt 18 r.sum := rfl
@[simp] theorem storeSearch_ofs (r : Search) (s : Block) : (storeSearch r s).ofs = BitVec.ofNat 10 r.offset := rfl
@[simp] theorem storeSearch_result (r : Search) (s : Block) : (storeSearch r s).result = detectionOf r := rfl
@[simp] theorem storeSearch_rdone (r : Search) (s : Block) : (storeSearch r s).rdone = true := rfl
@[simp] theorem storeSearch_results (r : Search) (s : Block) : (storeSearch r s).results = s.results := rfl
@[simp] theorem storeSearch_sdone (r : Search) (s : Block) : (storeSearch r s).sdone = s.sdone := rfl
@[simp] theorem storeSearch_err (r : Search) (s : Block) : (storeSearch r s).err = s.err := rfl
@[simp] theorem storeSearch_cause (r : Search) (s : Block) : (storeSearch r s).cause = s.cause := rfl
@[simp] theorem storeSearch_tapTable (r : Search) (s : Block) : (storeSearch r s).tapTable = s.tapTable := rfl

/-! ### storeEntry -/

@[simp] theorem storeEntry_g1 (k : Nat) (s : Block) : (storeEntry k s).g1 = s.g1 := rfl
@[simp] theorem storeEntry_g2 (k : Nat) (s : Block) : (storeEntry k s).g2 = s.g2 := rfl
@[simp] theorem storeEntry_tap1 (k : Nat) (s : Block) : (storeEntry k s).tap1 = s.tap1 := rfl
@[simp] theorem storeEntry_tap2 (k : Nat) (s : Block) : (storeEntry k s).tap2 = s.tap2 := rfl
@[simp] theorem storeEntry_sat (k : Nat) (s : Block) : (storeEntry k s).sat = s.sat := rfl
@[simp] theorem storeEntry_gcnt (k : Nat) (s : Block) : (storeEntry k s).gcnt = s.gcnt := rfl
@[simp] theorem storeEntry_prn (k : Nat) (s : Block) : (storeEntry k s).prn = s.prn := rfl
@[simp] theorem storeEntry_chipcnt (k : Nat) (s : Block) : (storeEntry k s).chipcnt = s.chipcnt := rfl
@[simp] theorem storeEntry_chip (k : Nat) (s : Block) : (storeEntry k s).chip = s.chip := rfl
@[simp] theorem storeEntry_thresh (k : Nat) (s : Block) : (storeEntry k s).thresh = s.thresh := rfl
@[simp] theorem storeEntry_acc (k : Nat) (s : Block) : (storeEntry k s).acc = s.acc := rfl
@[simp] theorem storeEntry_ofs (k : Nat) (s : Block) : (storeEntry k s).ofs = s.ofs := rfl
@[simp] theorem storeEntry_result (k : Nat) (s : Block) : (storeEntry k s).result = s.result := rfl
@[simp] theorem storeEntry_rdone (k : Nat) (s : Block) : (storeEntry k s).rdone = s.rdone := rfl
@[simp] theorem storeEntry_results (k : Nat) (s : Block) :
    (storeEntry k s).results = Memory.writeOver Detection.absent s.results k s.result := rfl
@[simp] theorem storeEntry_sdone (k : Nat) (s : Block) : (storeEntry k s).sdone = s.sdone := rfl
@[simp] theorem storeEntry_err (k : Nat) (s : Block) : (storeEntry k s).err = s.err := rfl
@[simp] theorem storeEntry_cause (k : Nat) (s : Block) : (storeEntry k s).cause = s.cause := rfl
@[simp] theorem storeEntry_tapTable (k : Nat) (s : Block) : (storeEntry k s).tapTable = s.tapTable := rfl

/-! ### applyReset -/

@[simp] theorem applyReset_g1 (s : Block) : (applyReset s).g1 = 0x3FF#10 := rfl
@[simp] theorem applyReset_g2 (s : Block) : (applyReset s).g2 = 0x3FF#10 := rfl
@[simp] theorem applyReset_tap1 (s : Block) : (applyReset s).tap1 = s.tapTable.first.tap1 := rfl
@[simp] theorem applyReset_tap2 (s : Block) : (applyReset s).tap2 = s.tapTable.first.tap2 := rfl
@[simp] theorem applyReset_sat (s : Block) : (applyReset s).sat = 0#5 := rfl
@[simp] theorem applyReset_gcnt (s : Block) : (applyReset s).gcnt = 0#10 := rfl
@[simp] theorem applyReset_prn (s : Block) : (applyReset s).prn = [] := rfl
@[simp] theorem applyReset_chipcnt (s : Block) : (applyReset s).chipcnt = 0#10 := rfl
@[simp] theorem applyReset_chip (s : Block) : (applyReset s).chip = [] := rfl
@[simp] theorem applyReset_thresh (s : Block) : (applyReset s).thresh = 200#17 := rfl
@[simp] theorem applyReset_acc (s : Block) : (applyReset s).acc = 0#18 := rfl
@[simp] theorem applyReset_ofs (s : Block) : (applyReset s).ofs = 0#10 := rfl
@[simp] theorem applyReset_result (s : Block) : (applyReset s).result = Detection.absent := rfl
@[simp] theorem applyReset_rdone (s : Block) : (applyReset s).rdone = false := rfl
@[simp] theorem applyReset_results (s : Block) : (applyReset s).results = [] := rfl
@[simp] theorem applyReset_sdone (s : Block) : (applyReset s).sdone = false := rfl
@[simp] theorem applyReset_err (s : Block) : (applyReset s).err = false := rfl
@[simp] theorem applyReset_cause (s : Block) : (applyReset s).cause = 0#4 := rfl
@[simp] theorem applyReset_tapTable (s : Block) : (applyReset s).tapTable = s.tapTable := rfl

/-! ### reply -/

@[simp] theorem reply_block (s : State) (b : Block) (r : Response) : (reply s b r).block = b := rfl
@[simp] theorem reply_inputs (s : State) (b : Block) (r : Response) : (reply s b r).inputs = s.inputs := rfl
@[simp] theorem reply_responses (s : State) (b : Block) (r : Response) :
    (reply s b r).responses = s.responses ++ [r] := rfl

/-! ### resetBlock -/

@[simp] theorem resetBlock_block (s : State) : (resetBlock s).block = applyReset s.block := rfl
@[simp] theorem resetBlock_inputs (s : State) : (resetBlock s).inputs = s.inputs := rfl
@[simp] theorem resetBlock_responses (s : State) : (resetBlock s).responses = s.responses := rfl

end Sys2Proof.Machine
end

