-- ==== Sys2Proof/Laws/Code.lean ====
section
/-! SUPPORT. Laws of the generator: the shifts bit by bit, the generated list by index, and what n generator steps
leave in a state. -/

namespace Sys2Proof.Machine

/-! ### The shifts -/

/-- Bit j of a shifted register: the feedback at bit 9, else the bit above (R92, R93). -/
theorem getLsbD_shiftIn (f : Bool) (g : BitVec 10) (j : Nat) :
    (shiftIn f g).getLsbD j = if j < 9 then g.getLsbD (j + 1) else (decide (j = 9) && f) := by
  unfold shiftIn
  rw [BitVec.getLsbD_append]
  split_ifs with h
  · simp [h, Nat.add_comm]
  · rcases Nat.lt_trichotomy j 9 with hj | rfl | hj
    · omega
    · cases f <;> decide
    · have : j - 9 ≠ 0 := by omega
      simp [show j ≠ 9 by omega, this]

theorem shiftTimes_succ (next : BitVec 10 → BitVec 10) (n : Nat) (g : BitVec 10) :
    shiftTimes next (n + 1) g = next (shiftTimes next n g) := by
  induction n generalizing g with
  | zero => rfl
  | succ n ih => rw [shiftTimes, ih, shiftTimes]

theorem shiftTimes_add (next : BitVec 10 → BitVec 10) (m n : Nat) (g : BitVec 10) :
    shiftTimes next (m + n) g = shiftTimes next n (shiftTimes next m g) := by
  induction m generalizing g with
  | zero => simp [shiftTimes]
  | succ m ih => rw [Nat.succ_add, shiftTimes, ih, shiftTimes]

/-- A shift as arithmetic on the whole register: right by one, the feedback or-ed into bit 9 (R92, R93). -/
theorem shiftIn_eq_or (f : Bool) (g : BitVec 10) :
    shiftIn f g = g >>> 1 ||| (BitVec.ofNat 10 (if f then 1 else 0)) <<< 9 := by
  ext j hj
  rw [← BitVec.getLsbD_eq_getElem, ← BitVec.getLsbD_eq_getElem, getLsbD_shiftIn]
  simp only [BitVec.getLsbD_or, BitVec.getLsbD_ushiftRight, BitVec.getLsbD_shiftLeft, BitVec.getLsbD_ofNat]
  by_cases h : j < 9
  · simp [h, Nat.add_comm]
  · obtain rfl : j = 9 := by omega
    cases f <;> simp

/-- shiftTimes with each register looked at before the next shift, so that the kernel evaluates a whole period shift by
shift. -/
def shiftTimesForced (next : BitVec 10 → BitVec 10) : Nat → BitVec 10 → BitVec 10
  | 0, g => g
  | n + 1, g => if g = 0 then 0 else shiftTimesForced next n (next g)

/-- Zero is a fixed point of both shifts (R102). -/
theorem shiftTimes_zero {next : BitVec 10 → BitVec 10} (h : next 0 = 0) (n : Nat) : shiftTimes next n 0 = 0 := by
  induction n with
  | zero => rfl
  | succ n ih => rw [shiftTimes, h, ih]

theorem shiftTimesForced_eq {next : BitVec 10 → BitVec 10} (h : next 0 = 0) (n : Nat) (g : BitVec 10) :
    shiftTimesForced next n g = shiftTimes next n g := by
  induction n generalizing g with
  | zero => rfl
  | succ n ih =>
    rw [shiftTimesForced, shiftTimes, ih]
    split_ifs with hg
    · rw [hg, h, shiftTimes_zero h]
    · rfl

/-- Both registers are back at 0x3FF after one period (R102). -/
theorem shiftTimes_period {next : BitVec 10 → BitVec 10} (h : next = next1 ∨ next = next2) :
    shiftTimes next 1023 0x3FF#10 = 0x3FF#10 := by
  rcases h with rfl | rfl
  · exact (shiftTimesForced_eq (by decide) _ _).symm.trans (by decide +kernel)
  · exact (shiftTimesForced_eq (by decide) _ _).symm.trans (by decide +kernel)

/-! ### The generated list -/

@[simp] theorem length_generateFrom (t1 t2 : BitVec 4) (n : Nat) (g1 g2 : BitVec 10) :
    (generateFrom t1 t2 n g1 g2).length = n := by
  induction n generalizing g1 g2 with
  | zero => rfl
  | succ n ih => simp [generateFrom, ih]

/-- Element i of the generated list: the combiner on the registers after i shifts (R96). -/
theorem getElem?_generateFrom (t1 t2 : BitVec 4) (n : Nat) (g1 g2 : BitVec 10) (i : Nat) :
    (generateFrom t1 t2 n g1 g2)[i]? =
      if i < n then some (combine (shiftTimes next1 i g1) (shiftTimes next2 i g2) t1 t2) else none := by
  induction n generalizing g1 g2 i with
  | zero => simp [generateFrom]
  | succ n ih =>
    cases i with
    | zero => simp [generateFrom, shiftTimes]
    | succ i => simp [generateFrom, ih, shiftTimes]

@[simp] theorem length_generate (t1 t2 : BitVec 4) : (generate t1 t2).length = 1023 := length_generateFrom ..

theorem getElem?_generate (t1 t2 : BitVec 4) {i : Nat} (h : i < 1023) :
    (generate t1 t2)[i]? = some (combine (shiftTimes next1 i 0x3FF) (shiftTimes next2 i 0x3FF) t1 t2) := by
  unfold generate
  rw [getElem?_generateFrom, if_pos (by simpa [Config.period] using h)]
  rfl

/-! ### Generator steps on a state -/

/-- What n generator steps leave outside the generator and RESULT (R98): nothing else is touched. -/
theorem generatorSteps_eq (n : Nat) (s : Block) (h : s.rdone = false) (h' : s.result = Detection.absent) :
    generatorSteps n s =
      { s with
        g1 := shiftTimes next1 n s.g1
        g2 := shiftTimes next2 n s.g2
        gcnt := s.gcnt + BitVec.ofNat 10 n
        prn := (generatorSteps n s).prn } := by
  induction n generalizing s with
  | zero => simp [generatorSteps, shiftTimes]
  | succ n ih =>
    have hstep : generatorStep s = { s with
        prn := s.prn.write s.gcnt.toNat (nextBit s), g1 := next1 s.g1, g2 := next2 s.g2, gcnt := s.gcnt + 1 } := by
      cases s; simp_all [generatorStep, clearResult]
    have hcnt : s.gcnt + 1 + BitVec.ofNat 10 n = s.gcnt + BitVec.ofNat 10 (n + 1) := by
      rw [BitVec.add_assoc, Nat.add_comm n 1, BitVec.ofNat_add]; rfl
    rw [generatorSteps, ih (generatorStep s) rfl rfl, hstep]
    simp only [shiftTimes, hcnt]

/-- What n generator steps leave in PRN, while GCNT does not pass 1023: the next n bits, appended (R98). -/
theorem generatorSteps_prn (n : Nat) (s : Block) (hk : s.prn.map Prod.fst = List.range s.gcnt.toNat)
    (hn : s.gcnt.toNat + n ≤ 1023) :
    (generatorSteps n s).prn.map Prod.fst = List.range (s.gcnt.toNat + n) ∧
      (generatorSteps n s).prn.map Prod.snd = s.prn.map Prod.snd ++ generateFrom s.tap1 s.tap2 n s.g1 s.g2 := by
  induction n generalizing s with
  | zero => simp [generatorSteps, hk, generateFrom]
  | succ n ih =>
    have hg : (generatorStep s).gcnt.toNat = s.gcnt.toNat + 1 := by
      simp only [generatorStep_gcnt, BitVec.toNat_add, BitVec.reduceToNat]
      omega
    have hw : (generatorStep s).prn = s.prn ++ [(s.gcnt.toNat, nextBit s)] :=
      Memory.write_append _ _ _ fun x hx => by rw [hk] at hx; exact List.mem_range.1 hx
    obtain ⟨h1, h2⟩ := ih (generatorStep s) (by rw [hw, hg, List.map_append, hk, List.range_succ]; rfl) (by omega)
    refine ⟨by rw [generatorSteps, h1, hg]; congr 1; omega, ?_⟩
    rw [generatorSteps, h2, hw]
    simp [generateFrom, nextBit]

/-- The state GEN's loop leaves, from any state with legal taps (R99): GCNT = 1023 and PRN = generate(TAP1, TAP2). -/
theorem runGenerator_spec {s t : Block} (h : runGenerator s = .ok t) :
    t = { startGenerator s with g1 := t.g1, g2 := t.g2, gcnt := 1023#10, prn := t.prn } ∧
    t.g1 = shiftTimes next1 1023 0x3FF ∧ t.g2 = shiftTimes next2 1023 0x3FF ∧
    t.prn.sequence 1023 = some (generate s.tap1 s.tap2) := by
  unfold runGenerator at h
  split at h
  · have e := generatorSteps_eq Config.period (startGenerator s) rfl rfl
    have p := generatorSteps_prn Config.period (startGenerator s) rfl (by simp [Config.period])
    simp only [startGenerator_gcnt, startGenerator_prn, startGenerator_g1, startGenerator_g2, startGenerator_tap1,
      startGenerator_tap2, List.map_nil, List.nil_append] at e p
    generalize generatorSteps Config.period (startGenerator s) = u at h e p
    cases h
    have e1 := congrArg Block.g1 e
    have e2 := congrArg Block.g2 e
    simp only at e1 e2
    refine ⟨?_, e1, e2, Memory.sequence_eq_some.2 ⟨p.1.trans (by simp [Config.period]), p.2⟩⟩
    rw [← e1, ← e2] at e
    exact e.trans (by simp [Config.period])
  · cases h

/-- The generator runs exactly when both taps are legal (R20, R99). -/
theorem runGenerator_of_tapsLegal {s : Block} (h : tapsLegal s = true) : ∃ t, runGenerator s = .ok t :=
  ⟨_, if_pos h⟩

end Sys2Proof.Machine
end

