-- ==== Sys2Proof/Laws/Correlate.lean ====
section
/-! SUPPORT. Laws of the correlator's functions: the rotated sum as R119's indexed sum, its bound (R127), what the
offset loop finds (R121), and lane sums (R130). -/

namespace Sys2Proof.Machine

/-! ### The sum -/

@[simp] theorem length_rotateChips (o : Nat) (chips : List Sample) : (rotateChips o chips).length = chips.length := by
  simp [rotateChips]; omega

/-- Element i of the rotated sequence is element (o + i) mod length (R47). -/
theorem getElem?_rotateChips {o : Nat} {chips : List Sample} (ho : o < chips.length) {i : Nat} (hi : i < chips.length) :
    (rotateChips o chips)[i]? = chips[(o + i) % chips.length]? := by
  unfold rotateChips
  rw [List.getElem?_append]
  split_ifs with h
  · rw [List.length_drop] at h
    rw [List.getElem?_drop, Nat.mod_eq_of_lt (by omega)]
  · rw [List.length_drop] at h ⊢
    rw [List.getElem?_take_of_lt (by omega), Nat.mod_eq_sub_mod (by omega), Nat.mod_eq_of_lt (by omega)]
    congr 1; omega

/-- The term-by-term sum of two lists of one length is the sum over their indices. -/
theorem dotSigns_eq_sum (chips : List Sample) (bits : List Bool) (h : chips.length = bits.length) :
    dotSigns chips bits =
      ∑ i ∈ Finset.range bits.length, (chips.getD i 0).toInt * signOf (bits.getD i false) := by
  induction chips generalizing bits with
  | nil => cases bits <;> simp_all [dotSigns]
  | cons v chips ih =>
    cases bits with
    | nil => simp at h
    | cons b bits =>
      rw [List.length_cons, Finset.sum_range_succ', dotSigns, ih bits (by simpa using h), add_comm]
      simp

/-- sum(c, p, o) as R119 writes it: 1023 terms, the chip index (o + i) mod 1023, the PRN index i. -/
theorem scalarSum_eq_sum {chips : List Sample} {bits : List Bool} (hc : chips.length = 1023) (hb : bits.length = 1023)
    {o : Nat} (ho : o ≤ 1022) :
    scalarSum chips bits o =
      ∑ i ∈ Finset.range 1023, (chips.getD ((o + i) % 1023) 0).toInt * signOf (bits.getD i false) := by
  unfold scalarSum
  rw [dotSigns_eq_sum _ _ (by simp [hc, hb]), hb]
  refine Finset.sum_congr rfl fun i hi => ?_
  rw [List.getD_eq_getElem?_getD, getElem?_rotateChips (by omega) (by rw [hc]; exact Finset.mem_range.1 hi), hc,
    ← List.getD_eq_getElem?_getD]

theorem natAbs_sample_mul_sign_le (v : Sample) (b : Bool) : (v.toInt * signOf b).natAbs ≤ 128 := by
  have h1 := v.toInt_lt
  have h2 := v.le_toInt
  cases b <;> simp [signOf] <;> omega

/-- Every partial sum of k terms has magnitude at most 128 · k (R117, R127). -/
theorem natAbs_dotSigns_le (chips : List Sample) (bits : List Bool) : (dotSigns chips bits).natAbs ≤ 128 * bits.length := by
  induction chips generalizing bits with
  | nil => simp [dotSigns]
  | cons v chips ih =>
    cases bits with
    | nil => simp [dotSigns]
    | cons b bits =>
      have h1 := natAbs_sample_mul_sign_le v b
      have h2 := ih bits
      rw [dotSigns, List.length_cons]
      omega

/-- A sum within the bound of R127 is what 18 bits two's complement hold (R28, R114). -/
theorem toInt_ofInt_of_bound {z : Int} (h : z.natAbs ≤ 130944) : (BitVec.ofInt 18 z).toInt = z := by
  rw [BitVec.toInt_ofInt, Int.bmod_eq_of_le] <;> omega

/-! ### The offset loop -/

/-- What the loop finds from offset o on: the first crossing, or the last offset without one (R121, R122). -/
theorem searchFrom_spec (sum : Nat → Int) (th n o : Nat) :
    (searchFrom sum th n o).sum = sum (searchFrom sum th n o).offset ∧
    o ≤ (searchFrom sum th n o).offset ∧ (searchFrom sum th n o).offset ≤ o + n ∧
    (∀ x, o ≤ x → x < (searchFrom sum th n o).offset → exceeds (sum x) th = false) ∧
    (searchFrom sum th n o).found = exceeds (sum (searchFrom sum th n o).offset) th ∧
    ((searchFrom sum th n o).found = false → (searchFrom sum th n o).offset = o + n) := by
  induction n generalizing o with
  | zero => exact ⟨rfl, le_rfl, le_rfl, fun x h1 h2 => absurd h2 (Nat.not_lt.2 h1), rfl, fun _ => rfl⟩
  | succ n ih =>
    unfold searchFrom
    split_ifs with h
    · exact ⟨rfl, le_rfl, by simp, fun x h1 h2 => absurd h2 (by simpa using h1), h.symm, by simp⟩
    · obtain ⟨h1, h2, h3, h4, h5, h6⟩ := ih (o + 1)
      refine ⟨h1, by omega, by omega, fun x hx1 hx2 => ?_, h5, fun hf => by rw [h6 hf]; omega⟩
      rcases Nat.eq_or_lt_of_le hx1 with rfl | hx
      · simpa using h
      · exact h4 x hx hx2

/-- What CORR's loop finds over the offsets 0..1022 (R121, R122). -/
theorem search_spec (sum : Nat → Int) (th : Nat) :
    (search sum th).sum = sum (search sum th).offset ∧ (search sum th).offset ≤ 1022 ∧
    (∀ x < (search sum th).offset, exceeds (sum x) th = false) ∧
    (search sum th).found = exceeds (sum (search sum th).offset) th ∧
    ((search sum th).found = false → (search sum th).offset = 1022) := by
  have h := searchFrom_spec sum th (Config.period - 1) 0
  simp only [Config.period, Nat.zero_le, true_and, forall_const, Nat.add_one_sub_one, Nat.zero_add] at h
  unfold search
  simpa only [Config.period, Nat.add_one_sub_one] using h

/-- The loop reads the sums at the offsets 0..1022 only. -/
theorem searchFrom_congr {sum sum' : Nat → Int} (th n o : Nat) (h : ∀ x, o ≤ x → x ≤ o + n → sum x = sum' x) :
    searchFrom sum th n o = searchFrom sum' th n o := by
  induction n generalizing o with
  | zero => simp only [searchFrom, h o le_rfl le_rfl]
  | succ n ih =>
    simp only [searchFrom, h o le_rfl (by omega), ih (o + 1) fun x hx1 hx2 => h x (by omega) (by omega)]

theorem search_congr {sum sum' : Nat → Int} (th : Nat) (h : ∀ x ≤ 1022, sum x = sum' x) :
    search sum th = search sum' th :=
  searchFrom_congr th _ _ fun x _ hx => h x (by simpa [Config.period] using hx)

/-- A detection is "no detection" exactly when the search found nothing (R85, D13). -/
theorem detectionOf_det (r : Search) : (detectionOf r).det = r.found := by
  unfold detectionOf; split_ifs with h <;> simp [Detection.absent, h]

/-! ### Lanes -/

theorem laneSum_append (l l' : List Sample) : laneSum (l ++ l') = laneSum l + laneSum l' := by
  induction l with
  | nil => simp [laneSum]
  | cons v l ih => simp [laneSum, ih, add_assoc]

@[simp] theorem laneSum_replicate_zero (n : Nat) : laneSum (List.replicate n 0#8) = 0 := by
  induction n with
  | zero => rfl
  | succ n ih => simp [List.replicate_succ, laneSum, ih]

/-- Groups that cover the lanes give the sum of all lanes, in whatever width they are taken (R117, R130). -/
theorem groupSums_eq_laneSum (vw n : Nat) (l : List Sample) (h : l.length ≤ n * vw) : groupSums vw n l = laneSum l := by
  induction n generalizing l with
  | zero =>
    have : l = [] := List.length_eq_zero_iff.1 (by omega)
    simp [groupSums, this, laneSum]
  | succ n ih =>
    rw [groupSums, ih _ (by rw [List.length_drop]; rw [Nat.succ_mul] at h; omega), ← laneSum_append, List.take_append_drop]

end Sys2Proof.Machine
end

