-- ==== Sys2Proof/Laws/Decode.lean ====
section
/-! SUPPORT. Laws of the decoder: every mask of R69 fixes the bits from some bit n up, so a row's test is a comparison
of quotients; and a word as the four bytes that carry it. -/

namespace Sys2Proof

/-- Concatenation as arithmetic: the high part counts 2 ^ n times (R10). -/
theorem toNat_concat {m n : Nat} (x : BitVec m) (y : BitVec n) : (x ++ y).toNat = x.toNat * 2 ^ n + y.toNat := by
  rw [BitVec.toNat_append, ← Nat.shiftLeft_add_eq_or_of_lt y.isLt, Nat.shiftLeft_eq]

/-- Masking with ones from bit n up drops the n low bits. -/
theorem toNat_and_highMask (w : Word) (n : Nat) :
    (w &&& (BitVec.allOnes 32 <<< n)).toNat = w.toNat / 2 ^ n * 2 ^ n := by
  have h : w &&& (BitVec.allOnes 32 <<< n) = (w >>> n) <<< n := by
    ext j hj
    simp only [BitVec.getElem_and, BitVec.getElem_shiftLeft, BitVec.getElem_allOnes]
    by_cases hjn : j < n
    · simp [hjn]
    · simp [hjn, show n + (j - n) = j by omega, BitVec.getLsbD_eq_getElem hj]
  rw [h, BitVec.toNat_shiftLeft, BitVec.toNat_ushiftRight, Nat.shiftLeft_eq, Nat.shiftRight_eq_div_pow]
  refine Nat.mod_eq_of_lt (lt_of_le_of_lt (Nat.div_mul_le_self ..) w.isLt)

/-- A row whose mask fixes the bits from n up selects a word exactly when the quotients by 2 ^ n agree (R69). -/
theorem selects_iff {row : OpcodeRow} {w : Word} (n : Nat) (hm : row.mask = BitVec.allOnes 32 <<< n)
    (hp : row.pattern.toNat % 2 ^ n = 0) :
    row.selects w = true ↔ w.toNat / 2 ^ n = row.pattern.toNat / 2 ^ n := by
  unfold OpcodeRow.selects
  rw [beq_iff_eq, ← BitVec.toNat_inj, hm, toNat_and_highMask w n]
  have := Nat.div_mul_cancel (Nat.dvd_of_mod_eq_zero hp)
  constructor
  · intro h; rw [← h, Nat.mul_div_cancel _ (by positivity)]
  · intro h; rw [h, this]

/-- Every row of R69 fixes the bits from some bit n ≤ 24 up, and its pattern has no bit below n. -/
theorem opcodeRows_highMask :
    ∀ row ∈ opcodeRows, ∃ n ≤ 24, row.mask = BitVec.allOnes 32 <<< n ∧ row.pattern.toNat % 2 ^ n = 0 := by
  intro row h
  simp only [opcodeRows, generatorRows, correlatorRows, List.cons_append, List.nil_append, List.mem_cons,
    List.not_mem_nil, or_false] at h
  rcases h with rfl | rfl | rfl | rfl | rfl | rfl | rfl | rfl | rfl | rfl | rfl | rfl | rfl | rfl | rfl | rfl
  exacts [⟨0, by decide⟩, ⟨4, by decide⟩, ⟨8, by decide⟩, ⟨5, by decide⟩, ⟨0, by decide⟩, ⟨0, by decide⟩,
    ⟨0, by decide⟩, ⟨12, by decide⟩, ⟨0, by decide⟩, ⟨8, by decide⟩, ⟨10, by decide⟩, ⟨17, by decide⟩,
    ⟨10, by decide⟩, ⟨0, by decide⟩, ⟨0, by decide⟩, ⟨5, by decide⟩]

/-- The operand field cmd[23:0] of a command as a number (R67, R68). -/
def Instr.field : Instr → Nat
  | .nop | .ginit | .gstep | .gen | .clrchip | .corr | .scan => 0
  | .rdreg r => r.toNat
  | .settap t1 t2 => t1.toNat * 2 ^ 4 + t2.toNat
  | .selsat k => k.toNat
  | .rdprn enc i => enc.toNat * 2 ^ 10 + i.toNat
  | .ldchip v => v.toNat
  | .rdchip i => i.toNat
  | .setthr v => v.toNat
  | .csum o => o.toNat
  | .rdsat k => k.toNat

theorem Instr.field_lt (i : Instr) : i.field < 2 ^ 24 := by
  cases i <;> simp only [Instr.field] <;> omega

/-- The word of a command as a number: the opcode times 2 ^ 24 and the operand field (R67). -/
theorem toNat_encode (i : Instr) : (encode i).toNat = i.opcode.toNat * 2 ^ 24 + i.field := by
  cases i with
  | rdreg r => exact (toNat_concat (0x01#8 ++ 0#20) r).trans (by simp [Instr.field, Instr.opcode])
  | settap t1 t2 =>
    refine (toNat_concat (0x10#8 ++ 0#16 ++ t1) t2).trans ?_
    rw [toNat_concat]; simp only [Instr.field, Instr.opcode, BitVec.reduceAppend, BitVec.reduceToNat]; omega
  | selsat k => exact (toNat_concat (0x11#8 ++ 0#19) k).trans (by simp [Instr.field, Instr.opcode])
  | rdprn enc i =>
    refine (toNat_concat (0x15#8 ++ 0#12 ++ enc) i).trans ?_
    rw [toNat_concat]; simp only [Instr.field, Instr.opcode, BitVec.reduceAppend, BitVec.reduceToNat]; omega
  | ldchip v => exact (toNat_concat (0x21#8 ++ 0#16) v).trans (by simp [Instr.field, Instr.opcode])
  | rdchip i => exact (toNat_concat (0x22#8 ++ 0#14) i).trans (by simp [Instr.field, Instr.opcode])
  | setthr v => exact (toNat_concat (0x23#8 ++ 0#7) v).trans (by simp [Instr.field, Instr.opcode])
  | csum o => exact (toNat_concat (0x24#8 ++ 0#14) o).trans (by simp [Instr.field, Instr.opcode])
  | rdsat k => exact (toNat_concat (0x31#8 ++ 0#19) k).trans (by simp [Instr.field, Instr.opcode])
  | _ => rfl

/-- The four bytes of a word, put together again, are the word (R48). -/
@[simp] theorem wordOfBytes_bytesOfWord (w : Word) :
    wordOfBytes (byteOfWord w 0) (byteOfWord w 1) (byteOfWord w 2) (byteOfWord w 3) = w := by
  unfold wordOfBytes byteOfWord
  ext j hj
  simp only [BitVec.getElem_append, BitVec.getElem_extractLsb']
  split_ifs <;> (rw [BitVec.getLsbD_eq_getElem (by omega)]; congr 1; omega)

/-- Decoding the four bytes that carry a word is decoding the word. -/
@[simp] theorem decodeBytes_bytesOfWord (w : Word) : decodeBytes (bytesOfWord w) = decode w := by
  simp [decodeBytes, bytesOfWord]

end Sys2Proof
end

