-- ==== Sys2Proof/Laws/Flags.lean ====
section
/-! SUPPORT. The words made of fields, as numbers: TAP, RESULT and STATUS (R20, R36, R85), and the two extensions of R11. -/

namespace Sys2Proof.Machine

/-- Zero-extension keeps the number (R11). -/
theorem setWidth_eq_ofNat {n : Nat} (x : BitVec n) : x.setWidth 32 = BitVec.ofNat 32 x.toNat :=
  BitVec.eq_of_toNat_eq (by simp)

/-- Sign-extension keeps the signed number (R11). -/
theorem signExtend_eq_ofInt {n : Nat} (x : BitVec n) : x.signExtend 32 = BitVec.ofInt 32 x.toInt := rfl

theorem toNat_ofBool_eq (b : Bool) : (BitVec.ofBool b).toNat = if b then 1 else 0 := by cases b <;> rfl

theorem toNat_tapWord (s : Block) : (tapWord s).toNat = 16 * s.tap1.toNat + s.tap2.toNat :=
  (toNat_concat s.tap1 s.tap2).trans (by omega)

theorem toNat_resultWord (done : Bool) (d : Detection) :
    (resultWord done d).toNat = 4096 * (if done then 1 else 0) + 2048 * (if d.det then 1 else 0) +
      1024 * (if d.bit then 1 else 0) + d.offset.toNat := by
  unfold resultWord
  refine (toNat_concat (BitVec.ofBool done ++ BitVec.ofBool d.det ++ BitVec.ofBool d.bit) d.offset).trans ?_
  simp only [toNat_concat, toNat_ofBool_eq]
  omega

theorem toNat_statusWord (s : Block) :
    (statusWord s).toNat = 128 * (if s.sdone then 1 else 0) + 64 * (if prnFull s then 1 else 0) +
      32 * (if chipFull s then 1 else 0) + 2 * s.cause.toNat + (if s.err then 1 else 0) := by
  unfold statusWord
  refine (toNat_concat (BitVec.ofBool s.sdone ++ BitVec.ofBool (prnFull s) ++ BitVec.ofBool (chipFull s) ++ s.cause)
    (BitVec.ofBool s.err)).trans ?_
  simp only [toNat_concat, toNat_ofBool_eq]
  omega

end Sys2Proof.Machine
end

