-- ==== Sys2Proof/Laws/Ops.lean ====
section
/-! SUPPORT. One lemma per shared operation that says all it can do, and one per meaning that says which of its cases
answered: later proofs cite these and unfold neither. -/

namespace Sys2Proof.Machine

@[simp] theorem period_eq : Config.period = 1023 := rfl

@[simp] theorem strategy_eq : Config.strategy = .scalar := rfl

@[simp] theorem sumsBy_scalar (chips : List Sample) (bits : List Bool) : sumsBy .scalar chips bits = scalarSum chips bits :=
  rfl

/-! ### Answering -/

theorem complete_eq_ok {d : Word} {s t : Block} {r : Response} : complete d s = .ok (t, r) ↔ t = s ∧ r = ⟨false, d⟩ := by
  simp [complete, eq_comm]

theorem takeFault_eq_ok {c : Cause} {s t : Block} {r : Response} :
    takeFault c s = .ok (t, r) ↔ t = recordCause c s ∧ r = ⟨true, c.code.setWidth 32⟩ := by
  simp [takeFault, eq_comm]

theorem finish_eq_ok {f : Block → Word} {x : Except Fault Block} {t : Block} {r : Response} :
    finish f x = .ok (t, r) ↔ x = .ok t ∧ r = ⟨false, f t⟩ := by
  cases x with
  | ok u =>
    simp only [finish, complete_eq_ok, Except.ok.injEq]
    constructor <;> (rintro ⟨rfl, rfl⟩; exact ⟨rfl, rfl⟩)
  | error e => simp [finish]

/-- A command answers a next state exactly when the block makes its transition; the host is then given the response. -/
theorem serve_eq_next {f : Block → Transition} {s t : State} :
    serve f s = .next t ↔ ∃ b r, f s.block = .ok (b, r) ∧ t = reply s b r := by
  unfold serve
  split
  · rename_i b r h
    simp [h, eq_comm]
  · rename_i e h
    simp [h]

@[simp] theorem code_le (c : Cause) : c.code.toNat ≤ 9 := by cases c <;> decide

@[simp] theorem code_ne_zero (c : Cause) : c.code.toNat ≠ 0 := by cases c <;> decide

theorem serve_of_ok {f : Block → Transition} {s : State} {b : Block} {r : Response} (h : f s.block = .ok (b, r)) :
    serve f s = .next (reply s b r) := serve_eq_next.2 ⟨b, r, h, rfl⟩

/-! ### Computations on the whole sequences -/

theorem onSequences_eq_ok {s t : Block} {f : List Sample → List Bool → Block} :
    onSequences s f = .ok t ↔
      ∃ chips bits, Memory.sequence s.chip 1023 = some chips ∧ s.prn.sequence 1023 = some bits ∧ t = f chips bits := by
  unfold onSequences
  simp only [period_eq]
  constructor
  · intro h
    split at h
    · rename_i chips bits h1 h2; cases h; exact ⟨chips, bits, h1, h2, rfl⟩
    · cases h
  · rintro ⟨chips, bits, h1, h2, rfl⟩
    rw [h1, h2]

theorem sumAt_eq_ok {st : Strategy} {o : Nat} {s t : Block} :
    sumAt st o s = .ok t ↔ ∃ chips bits, Memory.sequence s.chip 1023 = some chips ∧ s.prn.sequence 1023 = some bits ∧
      t = storeSum (sumBy st chips bits o) o s := onSequences_eq_ok

theorem correlateState_eq_ok {st : Strategy} {s t : Block} :
    correlateState st s = .ok t ↔
      ∃ chips bits, Memory.sequence s.chip 1023 = some chips ∧ s.prn.sequence 1023 = some bits ∧
        t = storeSearch (search (sumsBy st chips bits) s.thresh.toNat) s := onSequences_eq_ok

/-! ### Scanning -/

/-- The state one entry of SCAN leaves: what SELSAT, GEN, CORR and the store write, everything else as before (R140). -/
theorem scanEntry_spec {st : Strategy} {k : Nat} {p : TapPair} {s t : Block} (h : scanEntry st k p s = .ok t) :
    ∃ chips r, Memory.sequence s.chip 1023 = some chips ∧
      r = search (sumsBy st chips (generate p.tap1 p.tap2)) s.thresh.toNat ∧
      t.prn.sequence 1023 = some (generate p.tap1 p.tap2) ∧
      t.g1 = shiftTimes next1 1023 0x3FF ∧ t.g2 = shiftTimes next2 1023 0x3FF ∧
      t = { s with
        sat := BitVec.ofNat 5 k, tap1 := p.tap1, tap2 := p.tap2
        g1 := t.g1, g2 := t.g2, gcnt := 1023#10, prn := t.prn
        acc := BitVec.ofInt 18 r.sum, ofs := BitVec.ofNat 10 r.offset, result := detectionOf r, rdone := true
        results := Memory.writeOver Detection.absent s.results k (detectionOf r) } := by
  unfold scanEntry at h
  split at h
  · rename_i u hu
    obtain ⟨hu1, hg1, hg2, hu2⟩ := runGenerator_spec hu
    split at h
    · rename_i v hv
      obtain ⟨chips, bits, hc, hb, rfl⟩ := correlateState_eq_ok.1 hv
      rw [selectEntry_tap1, selectEntry_tap2] at hu2
      rw [hu2] at hb
      cases hb
      cases h
      have hchip := congrArg Block.chip hu1
      have hth := congrArg Block.thresh hu1
      simp only [startGenerator_chip, selectEntry_chip] at hchip
      simp only [startGenerator_thresh, selectEntry_thresh] at hth
      rw [hth]
      refine ⟨chips, _, hchip ▸ hc, rfl, hu2, hg1, hg2, ?_⟩
      generalize search (sumsBy st chips (generate p.tap1 p.tap2)) s.thresh.toNat = r
      clear hchip hth hc hu hv hu2 hg1 hg2
      generalize u.prn = prn at hu1
      generalize u.g1 = g1 at hu1
      generalize u.g2 = g2 at hu1
      subst hu1
      rfl
    · cases h
  · cases h

/-- An entry of SCAN completes when its taps are legal and the captured sequence is whole (R140: "cannot fail"). -/
theorem scanEntry_ok {st : Strategy} {k : Nat} {p : TapPair} {s : Block} (hp : pairLegal p = true) {chips : List Sample}
    (hc : Memory.sequence s.chip 1023 = some chips) : ∃ t, scanEntry st k p s = .ok t := by
  obtain ⟨u, hu⟩ := runGenerator_of_tapsLegal (s := selectEntry k p s) (by simpa [tapsLegal, pairLegal] using hp)
  obtain ⟨hu1, -, -, hu2⟩ := runGenerator_spec hu
  have hv : correlateState st u = .ok _ := correlateState_eq_ok.2 ⟨chips, _, by rw [hu1]; exact hc, hu2, rfl⟩
  unfold scanEntry
  rw [hu]; simp only [hv]
  exact ⟨_, rfl⟩

/-- What the loop of SCAN never writes (R140). -/
theorem scanFrom_frame {st : Strategy} {k : Nat} {ps : List TapPair} {s t : Block} (h : scanFrom st k ps s = .ok t) :
    t.chip = s.chip ∧ t.chipcnt = s.chipcnt ∧ t.thresh = s.thresh ∧ t.sdone = s.sdone ∧ t.err = s.err ∧
      t.cause = s.cause ∧ t.tapTable = s.tapTable := by
  induction ps generalizing k s with
  | nil => cases h; simp
  | cons p ps ih =>
    rw [scanFrom] at h
    split at h
    · rename_i u hu
      obtain ⟨chips, r, -, -, -, -, -, hu⟩ := scanEntry_spec hu
      obtain ⟨h1, h2, h3, h4, h5, h6, h7⟩ := ih h
      rw [hu] at h1 h2 h3 h4 h5 h6 h7
      exact ⟨h1, h2, h3, h4, h5, h6, h7⟩
    · cases h

/-- The entries the loop of SCAN leaves: entry k + j is the correlation with the code of the table's pair j, every other
entry is as before (R139, R140). -/
theorem scanFrom_entries {st : Strategy} {k : Nat} {ps : List TapPair} {s t : Block} (h : scanFrom st k ps s = .ok t)
    {chips : List Sample} (hc : Memory.sequence s.chip 1023 = some chips) (a : Nat) :
    resultEntry t a =
      match (if a < k then none else ps[a - k]?) with
      | some p => detectionOf (search (sumsBy st chips (generate p.tap1 p.tap2)) s.thresh.toNat)
      | none => resultEntry s a := by
  induction ps generalizing k s with
  | nil => cases h; simp
  | cons p ps ih =>
    rw [scanFrom] at h
    split at h
    · rename_i u hu
      obtain ⟨chips', r, hc', hr, -, -, -, hu⟩ := scanEntry_spec hu
      rw [hc] at hc'; cases hc'
      have hcu : Memory.sequence u.chip 1023 = some chips := by rw [hu]; exact hc
      have hth : u.thresh = s.thresh := by rw [hu]
      have hres : resultEntry u a = if a = k then detectionOf r else resultEntry s a := by
        unfold resultEntry; rw [hu]; exact Memory.readOver_writeOver ..
      rw [ih h hcu, hth, hres]
      rcases Nat.lt_trichotomy a k with hak | rfl | hak
      · simp [hak, Nat.lt_succ_of_lt hak, hak.ne]
      · simp [hr]
      · obtain ⟨j, rfl⟩ : ∃ j, a = k + 1 + j := ⟨a - (k + 1), by omega⟩
        rw [if_neg (by omega), if_neg (by omega), if_neg (by omega), show k + 1 + j - (k + 1) = j by omega,
          show k + 1 + j - k = j + 1 by omega, List.getElem?_cons_succ]
    · cases h

/-- The state after the last entry of SCAN's loop: the generator and the correlator as that entry leaves them (R140). -/
theorem scanFrom_last {st : Strategy} {k : Nat} {ps : List TapPair} {p : TapPair} {s t : Block}
    (h : scanFrom st k (ps ++ [p]) s = .ok t) {chips : List Sample} (hc : Memory.sequence s.chip 1023 = some chips) :
    t.sat = BitVec.ofNat 5 (k + ps.length) ∧ t.tap1 = p.tap1 ∧ t.tap2 = p.tap2 ∧
      t.g1 = shiftTimes next1 1023 0x3FF ∧ t.g2 = shiftTimes next2 1023 0x3FF ∧ t.gcnt = 1023#10 ∧
      t.prn.sequence 1023 = some (generate p.tap1 p.tap2) ∧ t.rdone = true ∧
      ∃ r, r = search (sumsBy st chips (generate p.tap1 p.tap2)) s.thresh.toNat ∧
        t.acc = BitVec.ofInt 18 r.sum ∧ t.ofs = BitVec.ofNat 10 r.offset ∧ t.result = detectionOf r := by
  induction ps generalizing k s with
  | nil =>
    simp only [List.nil_append, scanFrom] at h
    split at h
    · rename_i u hu
      obtain ⟨chips', r, hc', hr, hprn, hg1, hg2, hu⟩ := scanEntry_spec hu
      rw [hc] at hc'; cases hc'
      cases h
      refine ⟨?_, ?_, ?_, hg1, hg2, ?_, hprn, ?_, r, hr, ?_, ?_, ?_⟩ <;> (rw [hu]; try rfl)
    · cases h
  | cons q ps ih =>
    rw [List.cons_append, scanFrom] at h
    split at h
    · rename_i u hu
      obtain ⟨chips', r, hc', hr, -, -, -, hu⟩ := scanEntry_spec hu
      rw [hc] at hc'; cases hc'
      have := ih h (by rw [hu]; exact hc)
      rw [List.length_cons, show k + (ps.length + 1) = k + 1 + ps.length by omega]
      rwa [show u.thresh = s.thresh by rw [hu]] at this
    · cases h

/-- SCAN's loop completes when every pair is legal and the captured sequence is whole. -/
theorem scanFrom_ok {st : Strategy} {k : Nat} {ps : List TapPair} {s : Block} (hp : ps.all pairLegal = true)
    {chips : List Sample} (hc : Memory.sequence s.chip 1023 = some chips) : ∃ t, scanFrom st k ps s = .ok t := by
  induction ps generalizing k s with
  | nil => exact ⟨s, rfl⟩
  | cons p ps ih =>
    simp only [List.all_cons, Bool.and_eq_true] at hp
    obtain ⟨u, hu⟩ := scanEntry_ok (st := st) (k := k) hp.1 hc
    obtain ⟨chips', r, -, -, -, -, -, hu'⟩ := scanEntry_spec hu
    obtain ⟨t, ht⟩ := ih (k := k + 1) (s := u) hp.2 (by rw [hu']; exact hc)
    exact ⟨t, by rw [scanFrom, hu]; exact ht⟩

/-- SCAN ends in a state exactly when the table is a configuration and the loop ends, and then SDONE = 1 (R140). -/
theorem scanState_eq_ok {st : Strategy} {s t : Block} :
    scanState st s = .ok t ↔
      tableLegal s.tapTable = true ∧ ∃ u, scanFrom st 0 s.tapTable.toList s = .ok u ∧ t = { u with sdone := true } := by
  unfold scanState
  split_ifs with hl
  · constructor
    · intro h
      split at h
      · rename_i u hu; cases h; exact ⟨hl, u, hu, rfl⟩
      · cases h
    · rintro ⟨-, u, hu, rfl⟩; rw [hu]
  · simp [hl]

/-! ### The cases of each meaning -/

theorem blockNop_cases {s t : Block} {a : Response} (h : blockNop s = .ok (t, a)) :
    t = s ∧ a = ⟨false, 0⟩ := complete_eq_ok.1 h

theorem blockRdreg_cases {r : BitVec 4} {s t : Block} {a : Response} (h : blockRdreg r s = .ok (t, a)) :
    (∃ w, readRegister r s = some w ∧ t = s ∧ a = ⟨false, w⟩) ∨
      (readRegister r s = none ∧ t = recordCause .register s ∧ a = ⟨true, 2#32⟩) := by
  unfold blockRdreg at h
  split at h
  · exact .inl ⟨_, ‹_›, complete_eq_ok.1 h⟩
  · exact .inr ⟨‹_›, takeFault_eq_ok.1 h⟩

theorem blockSettap_cases {t1 t2 : BitVec 4} {s t : Block} {a : Response} (h : blockSettap t1 t2 s = .ok (t, a)) :
    (pairLegal ⟨t1, t2⟩ = true ∧ t = loadTaps ⟨t1, t2⟩ s ∧ a = ⟨false, 0⟩) ∨
      (pairLegal ⟨t1, t2⟩ = false ∧ t = recordCause .tap s ∧ a = ⟨true, 3#32⟩) := by
  unfold blockSettap at h
  split_ifs at h with h1
  · exact .inl ⟨h1, complete_eq_ok.1 h⟩
  · exact .inr ⟨eq_false_of_ne_true h1, takeFault_eq_ok.1 h⟩

theorem blockSelsat_cases {k : BitVec 5} {s t : Block} {a : Response} (h : blockSelsat k s = .ok (t, a)) :
    (∃ p, s.tapTable.toList[k.toNat]? = some p ∧ t = selectEntry k.toNat p s ∧ a = ⟨false, 0⟩) ∨
      (s.tapTable.toList[k.toNat]? = none ∧ t = recordCause .satellite s ∧ a = ⟨true, 4#32⟩) := by
  unfold blockSelsat at h
  split at h
  · exact .inl ⟨_, ‹_›, complete_eq_ok.1 h⟩
  · exact .inr ⟨‹_›, takeFault_eq_ok.1 h⟩

theorem blockGinit_cases {s t : Block} {a : Response} (h : blockGinit s = .ok (t, a)) :
    t = startGenerator s ∧ a = ⟨false, 0⟩ := complete_eq_ok.1 h

theorem blockGstep_cases {s t : Block} {a : Response} (h : blockGstep s = .ok (t, a)) :
    (prnFull s = false ∧ tapsLegal s = true ∧ t = generatorStep s ∧ a = ⟨false, bitWord (nextBit s)⟩) ∨
      (prnFull s = true ∧ t = recordCause .genOverrun s ∧ a = ⟨true, 6#32⟩) := by
  unfold blockGstep at h
  split at h
  · exact .inr ⟨‹_›, takeFault_eq_ok.1 h⟩
  · split at h
    · exact .inl ⟨by simpa using ‹¬prnFull s = true›, ‹_›, complete_eq_ok.1 h⟩
    · cases h

theorem blockGen_cases {s t : Block} {a : Response} (h : blockGen s = .ok (t, a)) :
    runGenerator s = .ok t ∧ a = ⟨false, 0⟩ := finish_eq_ok.1 h

theorem blockRdprn_cases {enc : BitVec 2} {i : BitVec 10} {s t : Block} {a : Response}
    (h : blockRdprn enc i s = .ok (t, a)) :
    (enc.toNat = 3 ∧ t = recordCause .illegal s ∧ a = ⟨true, 1#32⟩) ∨
      (enc.toNat ≠ 3 ∧ s.gcnt.toNat ≤ i.toNat ∧ t = recordCause .index s ∧ a = ⟨true, 5#32⟩) ∨
      (enc.toNat ≠ 3 ∧ i.toNat < s.gcnt.toNat ∧
        ∃ b, s.prn.read i.toNat = some b ∧ t = s ∧ a = ⟨false, prnView enc b⟩) := by
  unfold blockRdprn at h
  split_ifs at h with h1 h2
  · exact .inl ⟨h1, takeFault_eq_ok.1 h⟩
  · exact .inr (.inl ⟨h1, h2, takeFault_eq_ok.1 h⟩)
  · split at h
    · exact .inr (.inr ⟨h1, by omega, _, ‹_›, complete_eq_ok.1 h⟩)
    · cases h

theorem blockClrchip_cases {s t : Block} {a : Response} (h : blockClrchip s = .ok (t, a)) :
    t = clearResults { s with chipcnt := 0, chip := [] } ∧ a = ⟨false, 0⟩ := complete_eq_ok.1 h

theorem blockLdchip_cases {v : Sample} {s t : Block} {a : Response} (h : blockLdchip v s = .ok (t, a)) :
    (chipFull s = false ∧
        t = clearResults { s with chip := Memory.write s.chip s.chipcnt.toNat v, chipcnt := s.chipcnt + 1 } ∧
        a = ⟨false, 0⟩) ∨
      (chipFull s = true ∧ t = recordCause .chipFull s ∧ a = ⟨true, 7#32⟩) := by
  unfold blockLdchip at h
  split at h
  · exact .inr ⟨‹_›, takeFault_eq_ok.1 h⟩
  · exact .inl ⟨by simpa using ‹¬chipFull s = true›, complete_eq_ok.1 h⟩

theorem blockRdchip_cases {i : BitVec 10} {s t : Block} {a : Response} (h : blockRdchip i s = .ok (t, a)) :
    (s.chipcnt.toNat ≤ i.toNat ∧ t = recordCause .index s ∧ a = ⟨true, 5#32⟩) ∨
      (i.toNat < s.chipcnt.toNat ∧
        ∃ v, Memory.read s.chip i.toNat = some v ∧ t = s ∧ a = ⟨false, v.signExtend 32⟩) := by
  unfold blockRdchip at h
  split_ifs at h with h1
  · exact .inl ⟨h1, takeFault_eq_ok.1 h⟩
  · split at h
    · exact .inr ⟨by omega, _, ‹_›, complete_eq_ok.1 h⟩
    · cases h

theorem blockSetthr_cases {v : BitVec 17} {s t : Block} {a : Response} (h : blockSetthr v s = .ok (t, a)) :
    t = clearResults { s with thresh := v } ∧ a = ⟨false, 0⟩ := complete_eq_ok.1 h

theorem blockCsum_cases {o : BitVec 10} {s t : Block} {a : Response} (h : blockCsum o s = .ok (t, a)) :
    (∃ c : Cause, t = recordCause c s ∧ a = ⟨true, c.code.setWidth 32⟩) ∨
      (o.toNat ≠ 1023 ∧ chipFull s = true ∧ prnFull s = true ∧ ∃ chips bits,
        Memory.sequence s.chip 1023 = some chips ∧ s.prn.sequence 1023 = some bits ∧
        t = storeSum (scalarSum chips bits o.toNat) o.toNat s ∧
        a = ⟨false, (BitVec.ofInt 18 (scalarSum chips bits o.toNat)).signExtend 32⟩) := by
  unfold blockCsum at h
  split_ifs at h with h1 h2 h3
  · exact .inl ⟨_, takeFault_eq_ok.1 h⟩
  · exact .inl ⟨_, takeFault_eq_ok.1 h⟩
  · exact .inl ⟨_, takeFault_eq_ok.1 h⟩
  · obtain ⟨hu, rfl⟩ := finish_eq_ok.1 h
    obtain ⟨chips, bits, hc, hb, rfl⟩ := sumAt_eq_ok.1 hu
    exact .inr ⟨h1, by simpa using h2, by simpa using h3, chips, bits, hc, hb, rfl, rfl⟩

theorem blockCorr_cases {s t : Block} {a : Response} (h : blockCorr s = .ok (t, a)) :
    (∃ c : Cause, t = recordCause c s ∧ a = ⟨true, c.code.setWidth 32⟩) ∨
      (chipFull s = true ∧ prnFull s = true ∧ ∃ chips bits r,
        Memory.sequence s.chip 1023 = some chips ∧ s.prn.sequence 1023 = some bits ∧
        r = search (scalarSum chips bits) s.thresh.toNat ∧ t = storeSearch r s ∧ a = ⟨false, resultReg t⟩) := by
  unfold blockCorr at h
  split_ifs at h with h1 h2
  · exact .inl ⟨_, takeFault_eq_ok.1 h⟩
  · exact .inl ⟨_, takeFault_eq_ok.1 h⟩
  · obtain ⟨hu, rfl⟩ := finish_eq_ok.1 h
    obtain ⟨chips, bits, hc, hb, hu⟩ := correlateState_eq_ok.1 hu
    exact .inr ⟨by simpa using h1, by simpa using h2, chips, bits, _, hc, hb, rfl, hu, rfl⟩

theorem blockScan_cases {s t : Block} {a : Response} (h : blockScan s = .ok (t, a)) :
    (chipFull s = false ∧ t = recordCause .chipShort s ∧ a = ⟨true, 8#32⟩) ∨
      (chipFull s = true ∧ scanState .scalar s = .ok t ∧ a = ⟨false, detectionBitmap t⟩) := by
  unfold blockScan at h
  split_ifs at h with h1
  · exact .inl ⟨by simpa using h1, takeFault_eq_ok.1 h⟩
  · exact .inr ⟨by simpa using h1, finish_eq_ok.1 h⟩

theorem blockRdsat_cases {k : BitVec 5} {s t : Block} {a : Response} (h : blockRdsat k s = .ok (t, a)) :
    (k.toNat < s.tapTable.nsat ∧ t = s ∧ a = ⟨false, (resultWord s.sdone (resultEntry s k.toNat)).setWidth 32⟩) ∨
      (s.tapTable.nsat ≤ k.toNat ∧ t = recordCause .satellite s ∧ a = ⟨true, 4#32⟩) := by
  unfold blockRdsat at h
  split_ifs at h with h1
  · exact .inl ⟨h1, complete_eq_ok.1 h⟩
  · exact .inr ⟨by omega, takeFault_eq_ok.1 h⟩

/-! ### When the long commands complete -/

theorem blockGen_of_tapsLegal {s : Block} (h : tapsLegal s = true) : ∃ t, blockGen s = .ok (t, ⟨false, 0⟩) :=
  have ⟨t, ht⟩ := runGenerator_of_tapsLegal h
  ⟨t, finish_eq_ok.2 ⟨ht, rfl⟩⟩

theorem blockCsum_of_sequences {o : BitVec 10} {s : Block} (ho : o.toNat ≠ 1023) (h1 : chipFull s = true)
    (h2 : prnFull s = true) {chips : List Sample} {bits : List Bool} (hc : Memory.sequence s.chip 1023 = some chips)
    (hb : s.prn.sequence 1023 = some bits) :
    blockCsum o s = .ok (storeSum (scalarSum chips bits o.toNat) o.toNat s,
      ⟨false, (BitVec.ofInt 18 (scalarSum chips bits o.toNat)).signExtend 32⟩) := by
  unfold blockCsum
  rw [if_neg (by simpa using ho), if_neg (by simp [h1]), if_neg (by simp [h2])]
  exact finish_eq_ok.2 ⟨sumAt_eq_ok.2 ⟨_, _, hc, hb, rfl⟩, rfl⟩

theorem blockCorr_of_sequences {s : Block} (h1 : chipFull s = true) (h2 : prnFull s = true) {chips : List Sample}
    {bits : List Bool} (hc : Memory.sequence s.chip 1023 = some chips) (hb : s.prn.sequence 1023 = some bits) :
    blockCorr s = .ok (storeSearch (search (scalarSum chips bits) s.thresh.toNat) s,
      ⟨false, resultReg (storeSearch (search (scalarSum chips bits) s.thresh.toNat) s)⟩) := by
  unfold blockCorr
  rw [if_neg (by simp [h1]), if_neg (by simp [h2])]
  exact finish_eq_ok.2 ⟨correlateState_eq_ok.2 ⟨_, _, hc, hb, rfl⟩, rfl⟩

/-- SCAN completes with every sample loaded, whatever the configured table (R140: "cannot fail"). -/
theorem blockScan_of_sequence {s : Block} (h1 : chipFull s = true) (hl : tableLegal s.tapTable = true)
    {chips : List Sample} (hc : Memory.sequence s.chip 1023 = some chips) :
    ∃ t, scanState .scalar s = .ok t ∧ blockScan s = .ok (t, ⟨false, detectionBitmap t⟩) := by
  have hall : s.tapTable.toList.all pairLegal = true := by
    simp only [tableLegal, Bool.and_eq_true] at hl
    exact hl.2
  obtain ⟨u, hu⟩ := scanFrom_ok (st := .scalar) (k := 0) hall hc
  have ht := scanState_eq_ok.2 ⟨hl, u, hu, rfl⟩
  refine ⟨_, ht, ?_⟩
  unfold blockScan
  rw [if_neg (by simp [h1])]
  exact finish_eq_ok.2 ⟨ht, rfl⟩

end Sys2Proof.Machine
end

