-- ==== Sys2Proof/Laws/PerInstr.lean ====
section
/-! SUPPORT. Statements per instruction. Family OpcodeByte: the word of a command carries the command's opcode in its
top byte, bits 31:24 (R67, R69). -/

namespace Sys2Proof.Laws.OpcodeByte

def Statement (i : Instr) : Prop := (encode i).extractLsb' 24 8 = i.opcode

/-- What every constructor's lemma rests on: the opcode counts 2 ^ 24 in the word's number. -/
theorem of_toNat (i : Instr) : Statement i := by
  have h := i.field_lt
  have := i.opcode.isLt
  refine BitVec.eq_of_toNat_eq ?_
  rw [BitVec.extractLsb'_toNat, toNat_encode, Nat.shiftRight_eq_div_pow]
  omega

theorem nop : Statement .nop := of_toNat _

theorem rdreg (r : BitVec 4) : Statement (.rdreg r) := of_toNat _

theorem settap (t1 t2 : BitVec 4) : Statement (.settap t1 t2) := of_toNat _

theorem selsat (k : BitVec 5) : Statement (.selsat k) := of_toNat _

theorem ginit : Statement .ginit := of_toNat _

theorem gstep : Statement .gstep := of_toNat _

theorem gen : Statement .gen := of_toNat _

theorem rdprn (enc : BitVec 2) (i : BitVec 10) : Statement (.rdprn enc i) := of_toNat _

theorem clrchip : Statement .clrchip := of_toNat _

theorem ldchip (v : Sample) : Statement (.ldchip v) := of_toNat _

theorem rdchip (i : BitVec 10) : Statement (.rdchip i) := of_toNat _

theorem setthr (v : BitVec 17) : Statement (.setthr v) := of_toNat _

theorem csum (o : BitVec 10) : Statement (.csum o) := of_toNat _

theorem corr : Statement .corr := of_toNat _

theorem scan : Statement .scan := of_toNat _

theorem rdsat (k : BitVec 5) : Statement (.rdsat k) := of_toNat _

end Sys2Proof.Laws.OpcodeByte
end

