-- ==== Sys2Proof/Laws/Safety.lean ====
section
/-! SUPPORT. The words of the statements in terms of the shared operations: the state a fault leaves, legal taps and
tables, and the whole sequences of well-shaped memories; and that the memories stay canonical. -/

namespace Sys2Proof.Machine

/-! ### Answers -/

/-- Taking a fault leaves the state R153 describes field by field. -/
theorem reply_recordCause (c : Cause) (s : State) :
    reply s (recordCause c s.block) ⟨true, c.code.setWidth 32⟩ = afterFault c.code s := by
  rcases s with ⟨⟨⟩, _, _⟩
  unfold reply recordCause afterFault
  split <;> simp_all

theorem serve_takeFault (c : Cause) (s : State) : serve (takeFault c) s = .next (afterFault c.code s) := by
  rw [← reply_recordCause]; rfl

theorem serve_complete (d : Word) (s : State) : serve (complete d) s = .next (afterRead d s) := rfl

/-! ### Legal taps and tables -/

theorem tapLegal_iff {t : BitVec 4} : tapLegal t = true ↔ 1 ≤ t.toNat ∧ t.toNat ≤ 10 := by
  simp [tapLegal]

theorem pairLegal_iff {p : TapPair} :
    pairLegal p = true ↔ (1 ≤ p.tap1.toNat ∧ p.tap1.toNat ≤ 10) ∧ (1 ≤ p.tap2.toNat ∧ p.tap2.toNat ≤ 10) := by
  simp [pairLegal, tapLegal_iff]

theorem tapsLegal_iff {s : Block} :
    tapsLegal s = true ↔ (1 ≤ s.tap1.toNat ∧ s.tap1.toNat ≤ 10) ∧ (1 ≤ s.tap2.toNat ∧ s.tap2.toNat ≤ 10) := by
  simp [tapsLegal, tapLegal_iff]

theorem tableLegal_iff {t : TapTable} :
    tableLegal t = true ↔ t.nsat ≤ 32 ∧
      ∀ p ∈ t.toList, (1 ≤ p.tap1.toNat ∧ p.tap1.toNat ≤ 10) ∧ (1 ≤ p.tap2.toNat ∧ p.tap2.toNat ≤ 10) := by
  unfold tableLegal
  rw [Bool.and_eq_true, decide_eq_true_iff, List.all_eq_true]
  simp only [pairLegal_iff]
  rfl

theorem tableLegal_of_legalValues {s : Block} (h : LegalValues s) : tableLegal s.tapTable = true :=
  tableLegal_iff.2 ⟨h.table.2.1, h.table.2.2⟩

/-- An index of the table has an entry exactly below NSAT (R8). -/
theorem toList_getElem?_isSome {t : TapTable} {k : Nat} : (∃ p, t.toList[k]? = some p) ↔ k < t.nsat := by
  unfold TapTable.nsat
  constructor
  · rintro ⟨p, hp⟩; exact (List.getElem?_eq_some_iff.1 hp).1
  · exact fun h => ⟨_, List.getElem?_eq_getElem h⟩

theorem toList_getElem?_none {t : TapTable} {k : Nat} : t.toList[k]? = none ↔ t.nsat ≤ k := List.getElem?_eq_none_iff

/-! ### Counters and fill flags -/

theorem toNat_1023 {x : BitVec 10} : x.toNat = 1023 ↔ x = 1023#10 := by
  constructor
  · exact fun h => BitVec.eq_of_toNat_eq h
  · rintro rfl; rfl

theorem chipFull_iff {s : Block} : chipFull s = true ↔ s.chipcnt.toNat = 1023 := by simp [chipFull]

theorem prnFull_iff {s : Block} : prnFull s = true ↔ s.gcnt.toNat = 1023 := by simp [prnFull]

/-! ### Whole sequences -/

theorem chipsAre_of_sequence {s : Block} {chips : List Sample} (h : Memory.sequence s.chip 1023 = some chips) :
    chipsAre s chips :=
  ⟨(Memory.sequence_spec h).1, fun j _ => (Memory.sequence_spec h).2 j⟩

theorem prnIs_of_sequence {s : Block} {bits : List Bool} (h : s.prn.sequence 1023 = some bits) : prnIs s bits :=
  ⟨(Memory.sequence_spec h).1, fun i _ => (Memory.sequence_spec h).2 i⟩

/-- In a well-shaped state with CHIPCNT = 1023, the captured sequence is the list its reads give (R54). -/
theorem sequence_of_chipsAre {s : Block} (hs : MemoryShape s) (hn : s.chipcnt.toNat = 1023) {chips : List Sample}
    (h : chipsAre s chips) : Memory.sequence s.chip 1023 = some chips :=
  Memory.sequence_of_reads hs.chipCanonical h.1 (by rw [← hn]; exact hs.chipElements) h.2

/-- In a well-shaped state with GCNT = 1023, the code is the list its reads give (R54). -/
theorem sequence_of_prnIs {s : Block} (hs : MemoryShape s) (hn : s.gcnt.toNat = 1023) {bits : List Bool}
    (h : prnIs s bits) : s.prn.sequence 1023 = some bits :=
  Memory.sequence_of_reads hs.prnCanonical h.1 (by rw [← hn]; exact hs.prnElements) h.2

/-- Reads given by index are reads given by the list of the first n. -/
theorem reads_ofFn {α : Type} {m : Memory α} {n : Nat} {f : Nat → α} (h : ∀ j < n, m.read j = some (f j)) :
    ((List.range n).map f).length = n ∧ ∀ j < n, m.read j = ((List.range n).map f)[j]? := by
  refine ⟨by simp, fun j hj => ?_⟩
  rw [h j hj, List.getElem?_map, List.getElem?_range hj]
  rfl

/-- The machine's sum of a whole sequence given by index is R119's sum. -/
theorem scalarSum_eq_circularSum (c : Nat → Sample) (p : Nat → Bool) {o : Nat} (ho : o ≤ 1022) :
    scalarSum ((List.range 1023).map c) ((List.range 1023).map p) o = circularSum c p o := by
  rw [scalarSum_eq_sum (by simp) (by simp) ho]
  unfold circularSum
  refine Finset.sum_congr rfl fun i hi => ?_
  have h1 : i < 1023 := Finset.mem_range.1 hi
  have h2 : (o + i) % 1023 < 1023 := Nat.mod_lt _ (by decide)
  rw [List.getD_eq_getElem?_getD, List.getD_eq_getElem?_getD, List.getElem?_map, List.getElem?_map,
    List.getElem?_range h1, List.getElem?_range h2]
  rfl

/-! ### The memories stay canonical -/

/-- The state after reset lists nothing, so its memories are canonical. -/
theorem reset_memories_canonical (t : TapTable) :
    (Block.resetWith t).prn.wf ∧ Memory.wf (Block.resetWith t).chip ∧
      (Block.resetWith t).results.wfOver Detection.absent :=
  ⟨Memory.wf_nil, Memory.wf_nil, Memory.wf_nil, by simp [Block.resetWith]⟩

/-- A generator step keeps PRN canonical. -/
theorem wf_generatorStep {s : Block} (h : s.prn.wf) : (generatorStep s).prn.wf := Memory.wf_write h _ _

/-- SCAN's loop keeps RESULTS canonical and lists entries below k + (the number of pairs) only. -/
theorem scanFrom_results {st : Strategy} {k : Nat} {ps : List TapPair} {s t : Block} (h : scanFrom st k ps s = .ok t)
    (hw : s.results.wfOver Detection.absent) {n : Nat} (hk : ∀ a d, s.results.read a = some d → a < n)
    (hn : k + ps.length ≤ n) :
    t.results.wfOver Detection.absent ∧ ∀ a d, t.results.read a = some d → a < n := by
  induction ps generalizing k s with
  | nil => cases h; exact ⟨hw, hk⟩
  | cons p ps ih =>
    rw [scanFrom] at h
    split at h
    · rename_i u hu
      obtain ⟨chips, r, -, -, -, -, -, hu⟩ := scanEntry_spec hu
      have hres := congrArg Block.results hu
      simp only at hres
      rw [List.length_cons] at hn
      refine ih h (by rw [hres]; exact Memory.wfOver_writeOver hw _ _) (fun a d ha => ?_) (by omega)
      rw [hres] at ha
      unfold Memory.writeOver at ha
      split_ifs at ha
      · rw [Memory.read_erase] at ha
        split_ifs at ha
        exact hk a d ha
      · rw [Memory.read_write] at ha
        split_ifs at ha with hak
        · omega
        · exact hk a d ha
    · cases h

end Sys2Proof.Machine
end

