-- ==== Sys2Proof/Laws/Step.lean ====
section
/-! SUPPORT. What one step can do, said once: step_cases, and that a property which every effect of a command keeps is
kept by every step. And the whole of SCAN as one lemma. -/

namespace Sys2Proof.Machine

/-! ### SCAN as a whole -/

/-- A table is its first NSAT − 1 pairs and its last pair (R34: NSAT ≥ 1). -/
theorem toList_eq_append_last (t : TapTable) :
    ∃ ps p, t.toList = ps ++ [p] ∧ ps.length + 1 = t.nsat ∧ t.toList.getLast? = some p := by
  have hne : t.toList ≠ [] := by simp [TapTable.toList]
  refine ⟨t.toList.dropLast, t.toList.getLast hne, (List.dropLast_append_getLast hne).symm, ?_,
    List.getLast?_eq_getLast_of_ne_nil hne⟩
  rw [List.length_dropLast, TapTable.nsat]
  simp [TapTable.toList]

/-- What SCAN does not write (R140). -/
theorem scanState_frame {s t : Block} (h : scanState .scalar s = .ok t) :
    t = { s with
      sat := t.sat, tap1 := t.tap1, tap2 := t.tap2, g1 := t.g1, g2 := t.g2, gcnt := t.gcnt, prn := t.prn
      acc := t.acc, ofs := t.ofs, result := t.result, rdone := t.rdone, results := t.results, sdone := true } := by
  obtain ⟨-, u, hu, rfl⟩ := scanState_eq_ok.1 h
  obtain ⟨h1, h2, h3, h4, h5, h6, h7⟩ := scanFrom_frame hu
  cases s; cases u
  simp only at *
  subst_vars
  rfl

/-- What SCAN writes: every entry of the table, and the generator and correlator as the last entry p left them (R140). -/
theorem scanState_spec {s t : Block} (h : scanState .scalar s = .ok t) :
    ∃ (chips : List Sample) (p : TapPair) (r : Search), Memory.sequence s.chip 1023 = some chips ∧
      s.tapTable.toList.getLast? = some p ∧ p ∈ s.tapTable.toList ∧
      (∀ a, resultEntry t a =
        match s.tapTable.toList[a]? with
        | some q => correlate chips (generate q.tap1 q.tap2) s.thresh.toNat
        | none => resultEntry s a) ∧
      t.sat.toNat + 1 = s.tapTable.nsat ∧ t.tap1 = p.tap1 ∧ t.tap2 = p.tap2 ∧
      t.g1 = shiftTimes next1 1023 0x3FF ∧ t.g2 = shiftTimes next2 1023 0x3FF ∧ t.gcnt = 1023#10 ∧
      t.prn.sequence 1023 = some (generate p.tap1 p.tap2) ∧ t.rdone = true ∧
      r = search (scalarSum chips (generate p.tap1 p.tap2)) s.thresh.toNat ∧
      t.acc = BitVec.ofInt 18 r.sum ∧ t.ofs = BitVec.ofNat 10 r.offset ∧ t.result = detectionOf r := by
  obtain ⟨hl, u, hu, rfl⟩ := scanState_eq_ok.1 h
  have hseq : ∃ chips, Memory.sequence s.chip 1023 = some chips := by
    have hu' := hu
    rw [show s.tapTable.toList = s.tapTable.first :: s.tapTable.rest from rfl, scanFrom] at hu'
    split at hu'
    · rename_i w hw
      obtain ⟨chips, -, hs, -⟩ := scanEntry_spec hw
      exact ⟨chips, hs⟩
    · cases hu'
  obtain ⟨chips, hs⟩ := hseq
  obtain ⟨ps, p, e1, e2, e3⟩ := toList_eq_append_last s.tapTable
  have hu' := hu
  rw [e1] at hu'
  obtain ⟨l1, l2, l3, l4, l5, l6, l7, l8, r, lr, l9, l10, l11⟩ := scanFrom_last hu' hs
  refine ⟨chips, p, r, hs, e3, by rw [e1]; simp, fun a => ?_, ?_, l2, l3, l4, l5, l6, l7, l8, lr, l9, l10, l11⟩
  · have := scanFrom_entries hu hs a
    rw [if_neg (by omega), Nat.sub_zero] at this
    exact this
  · show u.sat.toNat + 1 = _
    have := (tableLegal_iff.1 hl).1
    rw [l1, ← e2, BitVec.toNat_ofNat]
    omega

/-! ### The port, and what one step can do -/

/-- Each meaning is the block's transition with its response given to the host (R41, R66). -/
theorem exec_eq_serve (i : Instr) (s : State) : exec i s = serve (blockCommand i) s := by cases i <;> rfl

/-- Presenting a word is the port's transition with its response given to the host (R63, R66). -/
theorem present_eq_serve (w : Word) (s : State) : present w s = serve (port w) s := by
  unfold present
  split
  · rename_i i h
    rw [exec_eq_serve]; unfold serve port; rw [h]
  · rename_i e h
    unfold serve port; rw [h]

/-- A step that takes a command word is the port's transition of the block on that word (R63, R64). -/
theorem step_command {s : State} {w : Word} {rest : List HostEvent} (h : s.inputs = .command w :: rest) :
    step s = serve (port w) { s with inputs := rest } := by
  unfold step; rw [h]; exact present_eq_serve w _

/-- All a step can do: stay, make the port's transition, or reset between commands or during one. -/
theorem step_cases {s t : State} (h : step s = .next t) :
    (s.inputs = [] ∧ t = s) ∨
    (∃ w rest b r, s.inputs = .command w :: rest ∧ port w s.block = .ok (b, r) ∧
      t = { block := b, inputs := rest, responses := s.responses ++ [r] }) ∨
    (∃ rest, s.inputs = .reset :: rest ∧
      t = { block := applyReset s.block, inputs := rest, responses := s.responses }) ∨
    ∃ rest, s.inputs = .resetDuringCommand :: rest ∧ t = interruptByReset { s with inputs := rest } := by
  cases hi : s.inputs with
  | nil => unfold step at h; rw [hi] at h; cases h; exact .inl ⟨rfl, rfl⟩
  | cons e rest =>
    cases e with
    | command w =>
      rw [step_command hi] at h
      obtain ⟨b, r, hp, rfl⟩ := serve_eq_next.1 h
      exact .inr (.inl ⟨w, rest, b, r, rfl, hp, rfl⟩)
    | reset => unfold step at h; rw [hi] at h; cases h; exact .inr (.inr (.inl ⟨rest, rfl, rfl⟩))
    | resetDuringCommand => unfold step at h; rw [hi] at h; cases h; exact .inr (.inr (.inr ⟨rest, rfl, rfl⟩))

/-! ### A property kept by every effect is kept by every step -/

/-- The property is kept by everything a command, or a reset does to the block's state. -/
structure KeptByEffects (P : Block → Prop) : Prop where
  fault : ∀ s c, P s → P (recordCause c s)
  reset : ∀ s, P s → P (applyReset s)
  settap : ∀ s t1 t2, P s → pairLegal ⟨t1, t2⟩ = true → P (loadTaps ⟨t1, t2⟩ s)
  selsat : ∀ s (k : BitVec 5) p, P s → s.tapTable.toList[k.toNat]? = some p → P (selectEntry k.toNat p s)
  ginit : ∀ s, P s → P (startGenerator s)
  gstep : ∀ s, P s → prnFull s = false → tapsLegal s = true → P (generatorStep s)
  gen : ∀ s t, P s → runGenerator s = .ok t → P t
  clrchip : ∀ s, P s → P (clearResults { s with chipcnt := 0, chip := [] })
  ldchip : ∀ s v, P s → chipFull s = false →
    P (clearResults { s with chip := Memory.write s.chip s.chipcnt.toNat v, chipcnt := s.chipcnt + 1 })
  setthr : ∀ s v, P s → P (clearResults { s with thresh := v })
  csum : ∀ s (o : BitVec 10) z, P s → o.toNat ≠ 1023 → z.natAbs ≤ 130944 → P (storeSum z o.toNat s)
  corr : ∀ s chips bits, P s → chipFull s = true → prnFull s = true → Memory.sequence s.chip 1023 = some chips →
    s.prn.sequence 1023 = some bits → P (storeSearch (search (scalarSum chips bits) s.thresh.toNat) s)
  scan : ∀ s t, P s → chipFull s = true → scanState .scalar s = .ok t → P t

/-- Every transition of the block keeps it. -/
theorem KeptByEffects.command {P : Block → Prop} (H : KeptByEffects P) {i : Instr} {s t : Block} {a : Response}
    (hs : P s) (h : blockCommand i s = .ok (t, a)) : P t := by
  have F := fun c => H.fault s c hs
  cases i with
  | nop => rw [(blockNop_cases h).1]; exact hs
  | rdreg r =>
    rcases blockRdreg_cases h with ⟨_, -, rfl, -⟩ | ⟨-, rfl, -⟩
    exacts [hs, F _]
  | settap t1 t2 =>
    rcases blockSettap_cases h with ⟨h1, rfl, -⟩ | ⟨-, rfl, -⟩
    exacts [H.settap _ _ _ hs h1, F _]
  | selsat k =>
    rcases blockSelsat_cases h with ⟨p, h1, rfl, -⟩ | ⟨-, rfl, -⟩
    exacts [H.selsat _ _ _ hs h1, F _]
  | ginit => rw [(blockGinit_cases h).1]; exact H.ginit _ hs
  | gstep =>
    rcases blockGstep_cases h with ⟨h1, h2, rfl, -⟩ | ⟨-, rfl, -⟩
    exacts [H.gstep _ hs h1 h2, F _]
  | gen => exact H.gen _ _ hs (blockGen_cases h).1
  | rdprn enc j =>
    rcases blockRdprn_cases h with ⟨-, rfl, -⟩ | ⟨-, -, rfl, -⟩ | ⟨-, -, _, -, rfl, -⟩
    exacts [F _, F _, hs]
  | clrchip => rw [(blockClrchip_cases h).1]; exact H.clrchip _ hs
  | ldchip v =>
    rcases blockLdchip_cases h with ⟨h1, rfl, -⟩ | ⟨-, rfl, -⟩
    exacts [H.ldchip _ _ hs h1, F _]
  | rdchip j =>
    rcases blockRdchip_cases h with ⟨-, rfl, -⟩ | ⟨-, _, -, rfl, -⟩
    exacts [F _, hs]
  | setthr v => rw [(blockSetthr_cases h).1]; exact H.setthr _ _ hs
  | csum o =>
    rcases blockCsum_cases h with ⟨_, rfl, -⟩ | ⟨h1, -, -, chips, bits, -, hb, rfl, -⟩
    · exact F _
    · have hz := natAbs_dotSigns_le (rotateChips o.toNat chips) bits
      rw [(Memory.sequence_spec hb).1] at hz
      exact H.csum _ _ _ hs h1 hz
  | corr =>
    rcases blockCorr_cases h with ⟨_, rfl, -⟩ | ⟨h1, h2, chips, bits, _, hc, hb, rfl, rfl, -⟩
    exacts [F _, H.corr _ _ _ hs h1 h2 hc hb]
  | scan =>
    rcases blockScan_cases h with ⟨-, rfl, -⟩ | ⟨h1, hu, -⟩
    exacts [F _, H.scan _ _ hs h1 hu]
  | rdsat k =>
    rcases blockRdsat_cases h with ⟨-, rfl, -⟩ | ⟨-, rfl, -⟩
    exacts [hs, F _]

/-- The induction step of every invariant of the block: each effect keeps it, so each step keeps it. -/
theorem KeptByEffects.step {P : Block → Prop} (H : KeptByEffects P) {s t : State} (hs : P s.block)
    (h : Sys2Proof.Machine.step s = .next t) : P t.block := by
  rcases step_cases h with ⟨-, rfl⟩ | ⟨w, rest, b, r, -, hp, rfl⟩ | ⟨rest, -, rfl⟩ | ⟨rest, -, rfl⟩
  · exact hs
  · unfold port at hp
    split at hp
    · exact H.command hs hp
    · rw [(takeFault_eq_ok.1 hp).1]; exact H.fault _ _ hs
  · exact H.reset _ hs
  · exact H.reset _ hs

end Sys2Proof.Machine
end

