-- ==== Sys2Proof/Tests/Slice0.lean ====
section
/-! SUPPORT. Tests. Every expected value is one of spec/95_test_vectors.md or a worked encoding of R77, or is worked out by
hand from the rule named; none is the model's own answer. Then a witness for every statement that has hypotheses. -/

namespace Sys2Proof.Tests

open Sys2Proof.Machine

/-! ### Well-formedness: a term each check refuses -/

/-- R35: registers 11 to 15 do not exist. -/
theorem test_wf_rdreg : (Instr.rdreg 10).wellFormed = true ∧ (Instr.rdreg 11).wellFormed = false := by decide

/-- R78: 0 and 11 to 15 are not tap indices, in either operand. -/
theorem test_wf_settap : (Instr.settap 1 10).wellFormed = true ∧ (Instr.settap 0 6).wellFormed = false ∧
    (Instr.settap 11 6).wellFormed = false ∧ (Instr.settap 2 0).wellFormed = false ∧
    (Instr.settap 2 15).wellFormed = false := by decide

/-- R83: encoding 3 is reserved; R45: PRN has no element 1023. -/
theorem test_wf_rdprn : (Instr.rdprn 2 1022).wellFormed = true ∧ (Instr.rdprn 3 0).wellFormed = false ∧
    (Instr.rdprn 0 1023).wellFormed = false := by decide

/-- R45, R53: CHIP has no element 1023 and no sum is at offset 1023. -/
theorem test_wf_index : (Instr.rdchip 1022).wellFormed = true ∧ (Instr.rdchip 1023).wellFormed = false ∧
    (Instr.csum 1022).wellFormed = true ∧ (Instr.csum 1023).wellFormed = false := by decide

/-! ### Decoding: a word of every command, bit by bit from the formats of R68 (spec/95 section 2.4, R77) -/

theorem test_decode_nop : decode 0b00000000_00000000_00000000_00000000#32 = .ok .nop := by decide
theorem test_decode_rdreg : decode 0b00000001_00000000_00000000_00001010#32 = .ok (.rdreg 10) := by decide
theorem test_decode_settap : decode 0b00010000_00000000_00000000_00100110#32 = .ok (.settap 2 6) := by decide
theorem test_decode_selsat : decode 0b00010001_00000000_00000000_00010111#32 = .ok (.selsat 23) := by decide
theorem test_decode_ginit : decode 0b00010010_00000000_00000000_00000000#32 = .ok .ginit := by decide
theorem test_decode_gstep : decode 0b00010011_00000000_00000000_00000000#32 = .ok .gstep := by decide
theorem test_decode_gen : decode 0b00010100_00000000_00000000_00000000#32 = .ok .gen := by decide
theorem test_decode_rdprn : decode 0b00010101_00000000_00001000_00000101#32 = .ok (.rdprn 2 5) := by decide
theorem test_decode_clrchip : decode 0b00100000_00000000_00000000_00000000#32 = .ok .clrchip := by decide
theorem test_decode_ldchip : decode 0b00100001_00000000_00000000_11001110#32 = .ok (.ldchip (BitVec.ofInt 8 (-50))) := by
  decide
theorem test_decode_rdchip : decode 0b00100010_00000000_00000011_11111110#32 = .ok (.rdchip 1022) := by decide
theorem test_decode_setthr : decode 0b00100011_00000000_11000111_11001110#32 = .ok (.setthr 51150) := by decide
theorem test_decode_csum : decode 0b00100100_00000000_00000000_01100100#32 = .ok (.csum 100) := by decide
theorem test_decode_corr : decode 0b00100101_00000000_00000000_00000000#32 = .ok .corr := by decide
theorem test_decode_scan : decode 0b00110000_00000000_00000000_00000000#32 = .ok .scan := by decide
theorem test_decode_rdsat : decode 0b00110001_00000000_00000000_00011111#32 = .ok (.rdsat 31) := by decide

/-- Words whose opcode is one of the sixteen but which have a reserved bit (spec/95 section 2.4). -/
theorem test_decode_reserved : [0x00000001#32, 0x01000010#32, 0x10000100#32, 0x11000020#32, 0x12000001#32,
    0x15001000#32, 0x21000100#32, 0x22000400#32, 0x23020000#32, 0x24000400#32, 0x25800000#32, 0x30000001#32,
    0x31000020#32].map decode = List.replicate 13 (.error .reservedBit) := by decide +kernel

/-- Words whose opcode is none of the sixteen (spec/95 section 2.4). -/
theorem test_decode_unknown : [0x02000000#32, 0x0F000000#32, 0x16000000#32, 0x26000000#32, 0x32000000#32,
    0x80000000#32, 0xDEADBEEF#32, 0xFFFFFFFF#32].map decode = List.replicate 8 (.error .unknownOpcode) := by
  decide +kernel

/-- R48: the word 0x21000032 is carried as the bytes 0x32, 0x00, 0x00, 0x21; three bytes are no command. -/
theorem test_decode_bytes : decodeBytes [0x32, 0x00, 0x00, 0x21] = .ok (.ldchip 50) ∧
    decodeBytes [0x32, 0x00, 0x00] = .error .notFourBytes ∧
    decodeTableWord 32 0x2301FFFF = some (.setthr 131071) := by decide

/-! ### The datapath (spec/95 section 2.1) -/

/-- The table of single shifts. -/
theorem test_shifts :
    [0x3FF#10, 0x001#10, 0x080#10, 0x200#10, 0x100#10, 0x2AA#10, 0x155#10, 0x081#10, 0x3FE#10].map next1 =
      [0x1FF#10, 0x200#10, 0x240#10, 0x100#10, 0x080#10, 0x355#10, 0x2AA#10, 0x040#10, 0x3FF#10] ∧
    [0x3FF#10, 0x001#10, 0x080#10, 0x200#10, 0x100#10, 0x2AA#10, 0x155#10, 0x081#10, 0x3FE#10].map next2 =
      [0x1FF#10, 0x200#10, 0x240#10, 0x100#10, 0x280#10, 0x155#10, 0x0AA#10, 0x040#10, 0x3FF#10] := by decide +kernel

/-- The combiner's rows. -/
theorem test_combine : combine 0x3FF 0x3FF 2 6 = true ∧ combine 0x0FF 0x0FF 2 6 = false ∧
    combine 0x23F 0x13F 2 6 = true ∧ combine 0x001 0x200 1 10 = false ∧ combine 0x001 0x201 1 10 = true ∧
    combine 0x000 0x010 6 6 = false ∧ combine 0x3FE 0x001 10 3 = true ∧ combine 0x3FE 0x081 10 3 = false := by decide

/-- The trace for taps (2, 6): step 11 starts from (0x11C, 0x25A). -/
theorem test_trace : shiftTimes next1 11 0x3FF = 0x11C#10 ∧ shiftTimes next2 11 0x3FF = 0x25A#10 := by
  decide +kernel

/-- The first ten chips of satellites 1, 2, 5 and 24 of the default table. -/
theorem test_first_chips :
    (generateFrom 2 6 10 0x3FF 0x3FF = [true, true, false, false, true, false, false, false, false, false]) ∧
    (generateFrom 3 7 10 0x3FF 0x3FF = [true, true, true, false, false, true, false, false, false, false]) ∧
    (generateFrom 1 9 10 0x3FF 0x3FF = [true, false, false, true, false, true, true, false, true, true]) ∧
    (generateFrom 4 6 10 0x3FF 0x3FF = [true, true, true, true, false, false, false, true, true, false]) := by decide +kernel

/-- R119 by hand: three chips 1, 2, −3 against bits 1, 0, 1 at offset 1: 2 · 1 + (−3) · (−1) + 1 · 1 = 6. -/
theorem test_scalarSum : scalarSum [1#8, 2#8, BitVec.ofInt 8 (-3)] [true, false, true] 1 = 6 := by decide

/-- R115, R121: the test is strict and the lowest offset wins; R116: a negative sum gives bit 0. -/
theorem test_search :
    exceeds 200 200 = false ∧ exceeds (-201) 200 = true ∧
    searchFrom (fun o => if o = 1 then -201 else 300 * o) 200 5 0 = ⟨-201, 1, true⟩ ∧
    detectionOf ⟨-201, 1, true⟩ = ⟨true, false, 1⟩ ∧ detectionOf ⟨3069, 1022, true⟩ = ⟨true, true, 1022⟩ := by decide

/-- R129: the padded lengths for VW = 16 are 1024 and 2048, for VW = 1 exactly 1023 and 2046. -/
theorem test_padding : plen 16 = 1024 ∧ xlen 16 = 2048 ∧ plen 1 = 1023 ∧ xlen 1 = 2046 := by decide

/-! ### Commands, one step each -/

/-- The state after a run of one command on `s`. -/
def after (s : State) (i : Instr) : State :=
  match exec i s with
  | .next t => t
  | _ => s

/-- The response a command gives on `s`. -/
def response (s : State) (i : Instr) : Option (Bool × Word) :=
  match exec i s with
  | .next t => t.responses.getLast?.map fun r => (r.fault, r.rdata)
  | _ => none

theorem test_nop : after .reset .nop = { State.reset with responses := [⟨false, 0⟩] } := by decide

/-- spec/95 section 2.7: the registers straight after reset. -/
theorem test_rdreg : [0, 1, 2, 3, 4, 5, 6, 7, 8, 9, 10].map (fun r => response .reset (.rdreg r)) =
    [0x3FF, 0x3FF, 0x26, 0, 0, 0, 0xC8, 0, 0, 0, 0].map fun w => some (false, w) := by decide

/-- R82: a negative ACC reads sign-extended; R36: STATUS 0xED of section 2.5. -/
theorem test_rdreg_fields :
    response { State.reset with acc := BitVec.ofInt 18 (-3250) } (.rdreg 7) = some (false, 0xFFFFF34E) ∧
    response { State.reset with err := true, cause := 6, chipcnt := 1023, gcnt := 1023, sdone := true } (.rdreg 10) =
      some (false, 0xED) := by decide

theorem test_settap : let t := after { State.reset with gcnt := 5, rdone := true } (.settap 10 3)
    t.tap1 = 10 ∧ t.tap2 = 3 ∧ t.gcnt = 0 ∧ t.rdone = false ∧ t.sat = 0 := by decide

theorem test_settap_fault : response .reset (.settap 0 6) = some (true, 3) ∧
    response .reset (.settap 11 6) = some (true, 3) ∧ response .reset (.settap 2 15) = some (true, 3) := by decide

theorem test_selsat : let t := after .reset (.selsat 23)
    t.sat = 23 ∧ t.tap1 = 4 ∧ t.tap2 = 6 ∧ response .reset (.selsat 24) = some (true, 4) := by decide

theorem test_ginit : let t := after { State.reset with g1 := 5, g2 := 9, gcnt := 7, tap1 := 3, sdone := true } .ginit
    t.g1 = 0x3FF ∧ t.g2 = 0x3FF ∧ t.gcnt = 0 ∧ t.tap1 = 3 ∧ t.sdone = true := by decide

/-- Step 4 of the trace for taps (2, 6): from (0x23F, 0x13F) it emits 1 and goes to (0x31F, 0x29F). -/
theorem test_gstep : let t := after { State.reset with g1 := 0x23F, g2 := 0x13F, gcnt := 4 } .gstep
    t.g1 = 0x31F ∧ t.g2 = 0x29F ∧ t.gcnt = 5 ∧ t.prn = [(4, true)] ∧ t.responses = [⟨false, 1⟩] := by decide

theorem test_gstep_overrun : response { State.reset with gcnt := 1023 } .gstep = some (true, 6) := by decide

/-- Program P1: RDPRN 2, 2 of a bit 0 answers −1, RDPRN 1, 0 of a bit 1 answers 0xFF. -/
theorem test_rdprn :
    response { State.reset with gcnt := 3, prn := [(0, true), (1, true), (2, false)] } (.rdprn 2 2) =
      some (false, 0xFFFFFFFF) ∧
    response { State.reset with gcnt := 3, prn := [(0, true), (1, true), (2, false)] } (.rdprn 1 0) =
      some (false, 0xFF) := by decide

/-- R154: RDPRN 3, 0 reports 1, not 5; RDPRN 0, 0 after reset reports 5. -/
theorem test_rdprn_fault : response .reset (.rdprn 3 0) = some (true, 1) ∧
    response .reset (.rdprn 0 0) = some (true, 5) := by decide

theorem test_clrchip : let t := after { State.reset with chipcnt := 1, chip := [(0, 7)], sdone := true, acc := 9 } .clrchip
    t.chipcnt = 0 ∧ t.chip = [] ∧ t.sdone = false ∧ t.acc = 9 := by decide

theorem test_ldchip : let t := after { State.reset with chipcnt := 1, chip := [(0, 7)], rdone := true } (.ldchip 0x80)
    t.chip = [(0, 7), (1, 0x80)] ∧ t.chipcnt = 2 ∧ t.rdone = false ∧
    response { State.reset with chipcnt := 1023 } (.ldchip 0) = some (true, 7) := by decide

/-- spec/95 section 2.2: after LDCHIP −50, 50, −128. -/
theorem test_rdchip : let s := { State.reset with chipcnt := 3, chip := [(0, 0xCE), (1, 0x32), (2, 0x80)] }
    response s (.rdchip 0) = some (false, 0xFFFFFFCE) ∧ response s (.rdchip 1) = some (false, 0x32) ∧
    response s (.rdchip 2) = some (false, 0xFFFFFF80) ∧ response s (.rdchip 3) = some (true, 5) := by decide

theorem test_setthr : let t := after { State.reset with rdone := true, result := ⟨true, true, 3⟩ } (.setthr 200)
    t.thresh = 200 ∧ t.rdone = false ∧ t.result = ⟨false, false, 0⟩ := by decide

/-- spec/95 section 2.5: the order of CSUM's checks. -/
theorem test_csum_fault : response .reset (.csum 1023) = some (true, 5) ∧ response .reset (.csum 0) = some (true, 8) ∧
    response { State.reset with chipcnt := 1023 } (.csum 0) = some (true, 9) := by decide

theorem test_corr_fault : response .reset .corr = some (true, 8) ∧
    response { State.reset with gcnt := 1023 } .corr = some (true, 8) := by decide

theorem test_scan_fault : response .reset .scan = some (true, 8) := by decide

/-- spec/95 program P3: entry 5 is 0x1864 after the scan; section 2.7: 0x0000 before one. -/
theorem test_rdsat :
    response { State.reset with sdone := true, results := [(5, ⟨true, false, 100⟩)] } (.rdsat 5) =
      some (false, 0x1864) ∧
    response { State.reset with sdone := true, results := [(5, ⟨true, false, 100⟩)] } (.rdsat 4) =
      some (false, 0x1000) ∧
    response .reset (.rdsat 0) = some (false, 0) ∧ response .reset (.rdsat 31) = some (true, 4) := by decide

/-- The detection bitmap of program P5: entries 2 and 9 detected. -/
theorem test_bitmap :
    detectionBitmap { State.reset.block with results := [(2, ⟨true, true, 200⟩), (9, ⟨true, false, 900⟩)] } =
    0x00000204 := by decide

/-- spec/95 section 2.5: the first cause sticks, each response carries its own. -/
theorem test_first_cause : let t := after (after .reset .corr) (.settap 0 6)
    t.err = true ∧ t.cause = 8 ∧ t.responses = [⟨true, 8⟩, ⟨true, 3⟩] := by decide

/-- R88: the source's literal line. -/
theorem test_report : report [(1, ⟨true, true, 0⟩), (2, ⟨false, false, 0⟩), (10, ⟨true, false, 900⟩)] =
    ["Satellite  1 has sent bit 1 (delta = 0)", "Satellite 10 has sent bit 0 (delta = 900)"] := by decide

/-- R86, R87: a line of program P1 and the expansion of GENSAT 5. -/
theorem test_assembler : asmLine (.rdprn 2 2) = "RDPRN 2, 2" ∧ asmLine (.ldchip 0xCE) = "LDCHIP -50" ∧
    expand (.gensat 5) = [.selsat 5, .gen] := by decide

/-! ### The step -/

/-- The state after one step. -/
def stepped (s : State) : Option State :=
  match step s with
  | .next t => some t
  | _ => none

/-- GSTEP as the first command after reset, through the fetch the host uses. -/
theorem test_step : stepped (State.reset.withFetchWord 32 0x13000000) =
    some { State.reset with
      g1 := 0x1FF, g2 := 0x1FF, gcnt := 1, prn := [(0, true)], responses := [⟨false, 1⟩] } := by decide +kernel

/-- Program P4, command 4: an illegal word. -/
theorem test_step_illegal : stepped (State.reset.withFetchWord 32 0xDEADBEEF) =
    some { State.reset with err := true, cause := 1, responses := [⟨true, 1⟩] } := by decide +kernel

theorem test_step_reset : stepped { State.reset with thresh := 7, err := true, cause := 3, inputs := [.reset] } =
    some State.reset := by decide +kernel

/-- R170: reset during a command leaves the reset state; its response's value is free, so only its presence is tested. -/
theorem test_step_interrupted :
    (stepped { State.reset with gcnt := 5, err := true, cause := 3, inputs := [.resetDuringCommand] }).map
      (fun t => (t.gcnt, t.err, t.cause, t.responses.length)) = some (0, false, 0, 1) := by decide

/-! ### Witnesses: for each statement with hypotheses, a state and operands that meet all of them -/

/-- The memory that holds n equal elements. -/
@[irreducible] def filled {α : Type} (n : Nat) (a : α) : Memory α := (List.range n).map (·, a)

theorem keys_filled {α : Type} (n : Nat) (a : α) : (filled n a).map Prod.fst = List.range n := by
  unfold filled
  rw [List.map_map]
  exact List.map_id _

theorem read_filled {α : Type} (n : Nat) (a : α) (i : Nat) : (filled n a).read i = if i < n then some a else none := by
  rw [Memory.read_of_keys (keys_filled n a)]
  unfold filled
  rw [List.map_map, List.getElem?_map]
  split_ifs with h
  · rw [List.getElem?_range h]; rfl
  · rw [List.getElem?_eq_none (by simpa using h)]; rfl

theorem elements_filled {α : Type} (n : Nat) (a : α) (i : Nat) : (∃ v, (filled n a).read i = some v) ↔ i < n := by
  rw [read_filled]; split_ifs with h <;> simp [h]

theorem wf_filled {α : Type} (n : Nat) (a : α) : (filled n a).wf := by
  unfold Memory.wf; rw [keys_filled]; exact List.pairwise_lt_range

/-- 1023 equal samples and 1023 equal bits loaded, THRESH = th, everything else as after reset. -/
def loaded (v : Sample) (b : Bool) (th : BitVec 17) : State :=
  { State.reset with
    chipcnt := 1023, chip := filled 1023 v, gcnt := 1023, prn := filled 1023 b, thresh := th }

theorem loaded_shape (v : Sample) (b : Bool) (th : BitVec 17) : MemoryShape (loaded v b th).block where
  prnCanonical := wf_filled 1023 b
  chipCanonical := wf_filled 1023 v
  resultsCanonical := ⟨Memory.wf_nil, fun _ h => absurd h List.not_mem_nil⟩
  prnElements := elements_filled 1023 b
  chipElements := elements_filled 1023 v
  resultElements := fun _ _ h => nomatch h

theorem reset_legal : LegalValues State.reset.block where
  table := by decide
  taps := by decide
  sat := by decide
  gcnt := by decide
  chipcnt := by decide
  ofs := by decide
  result := by unfold detectionLegal; decide
  entries := by unfold detectionLegal; decide
  acc := by decide
  cause := by decide
  rdone := fun _ => rfl
  sdone := fun _ _ _ => rfl

theorem loaded_legal (v : Sample) (b : Bool) (th : BitVec 17) : LegalValues (loaded v b th).block :=
  have ⟨h1, h2, h3, _, _, h6, h7, h8, h9, h10, h11, h12⟩ := reset_legal
  ⟨h1, h2, h3, Nat.le_refl 1023, Nat.le_refl 1023, h6, h7, h8, h9, h10, h11, h12⟩

theorem loaded_chips (v : Sample) (b : Bool) (th : BitVec 17) (j : Nat) (h : j < 1023) :
    Memory.read (loaded v b th).chip j = some v := (read_filled 1023 v j).trans (if_pos h)

theorem loaded_bits (v : Sample) (b : Bool) (th : BitVec 17) (i : Nat) (h : i < 1023) :
    (loaded v b th).prn.read i = some b := (read_filled 1023 b i).trans (if_pos h)

theorem loaded_chipsAre (v : Sample) (b : Bool) (th : BitVec 17) :
    chipsAre (loaded v b th).block (List.replicate 1023 v) :=
  ⟨List.length_replicate, fun j h => by rw [loaded_chips v b th j h, List.getElem?_replicate, if_pos h]⟩

theorem loaded_prnIs (v : Sample) (b : Bool) (th : BitVec 17) : prnIs (loaded v b th).block (List.replicate 1023 b) :=
  ⟨List.length_replicate, fun i h => by rw [loaded_bits v b th i h, List.getElem?_replicate, if_pos h]⟩

theorem loaded_sequences (v : Sample) (b : Bool) (th : BitVec 17) :
    Memory.sequence (loaded v b th).chip 1023 = some (List.replicate 1023 v) ∧
      (loaded v b th).prn.sequence 1023 = some (List.replicate 1023 b) :=
  ⟨sequence_of_chipsAre (loaded_shape v b th) rfl (loaded_chipsAre v b th),
    sequence_of_prnIs (loaded_shape v b th) rfl (loaded_prnIs v b th)⟩

/-- Chips of one value v against bits of one value: every sum is 1023 times v, up to the sign of the bit. -/
theorem circularSum_constant (v : Sample) (o : Nat) : circularSum (fun _ => v) (fun _ => true) o = 1023 * v.toInt := by
  simp [circularSum]

/-! #### Encoding and the port -/

theorem witness_EncodeDecodeRoundTrip : decode 0x10000026 = .ok (.settap 2 6) ∧ decode 0x2301FFFF = .ok (.setthr 131071) := by
  decide

theorem witness_DecoderFollowsTheOneSelectedRow :
    (∃ row, opcodeRows[2]? = some row ∧ 0x10000026#32 &&& row.mask = row.pattern) ∧
    (∃ row, opcodeRows[15]? = some row ∧ 0x3100001F#32 &&& row.mask = row.pattern) ∧
    ∀ row ∈ opcodeRows, 0x02000000#32 &&& row.mask ≠ row.pattern := by
  refine ⟨⟨_, rfl, by decide⟩, ⟨_, rfl, by decide⟩, ?_⟩
  simp only [opcodeRows, generatorRows, correlatorRows, List.cons_append, List.nil_append, List.mem_cons,
    List.not_mem_nil, or_false]
  rintro row (rfl | rfl | rfl | rfl | rfl | rfl | rfl | rfl | rfl | rfl | rfl | rfl | rfl | rfl | rfl | rfl) <;> decide

theorem witness_StepRunsDecodedCommand :
    { State.reset with inputs := [.command 0x13000000, .reset] }.inputs = .command 0x13000000 :: [.reset] ∧
      decode 0x13000000 = .ok .gstep := by decide

/-- CORR on a loaded block, and a word that is no command. -/
theorem witness_PortIsATotalFunction : ∃ b : Block, LegalValues b ∧ MemoryShape b ∧ b.chipcnt = 1023 ∧
    decode 0x25000000 = .ok .corr ∧ decode 0xDEADBEEF = .error .unknownOpcode :=
  ⟨_, loaded_legal 1 true 200, loaded_shape 1 true 200, rfl, by decide, by decide⟩

theorem witness_StepFaultsOnIllegalWord :
    { State.reset with inputs := [.command 0xDEADBEEF] }.inputs = .command 0xDEADBEEF :: [] ∧
      decode 0xDEADBEEF = .error .unknownOpcode ∧ decode 0x12000001 = .error .reservedBit := by decide +kernel

theorem witness_IdleBlockStays : State.reset.inputs = [] := rfl

/-- A faulty block about to be reset, one about to be reset during a command, and one about to take RDREG 10. -/
theorem witness_OnlyResetClearsErr :
    { State.reset with err := true, cause := 3, inputs := [.reset] }.inputs = .reset :: [] ∧
    { State.reset with err := true, inputs := [.resetDuringCommand, .reset] }.inputs = .resetDuringCommand :: [.reset] ∧
    (∃ t, step { State.reset with err := true, cause := 3, inputs := [.command 0x0100000A] } = .next t ∧
      { State.reset with err := true, cause := 3, inputs := [.command 0x0100000A] }.err = true ∧
      ∀ rest, { State.reset with err := true, cause := 3, inputs := [.command 0x0100000A] }.inputs ≠ .reset :: rest ∧
        { State.reset with err := true, cause := 3, inputs := [.command 0x0100000A] }.inputs ≠
          .resetDuringCommand :: rest) :=
  ⟨rfl, rfl, _, rfl, rfl, fun _ => ⟨(fun h => nomatch h), (fun h => nomatch h)⟩⟩

/-- One command that completes and one that faults. -/
theorem witness_OneResponsePerCommand :
    (∃ t, step (State.reset.withFetchWord 32 0x13000000) = .next t ∧ t.responses = [⟨false, 1⟩]) ∧
    ∃ t, step (State.reset.withFetchWord 32 0x25000000) = .next t ∧ t.responses = [⟨true, 8⟩] :=
  ⟨⟨_, rfl, rfl⟩, _, rfl, rfl⟩

theorem witness_TapTableNeverChanges : ∃ t, step (State.reset.withFetchWord 32 0x11000017) = .next t := ⟨_, rfl⟩

/-! #### Faults -/

theorem witness_FaultingCommandChangesNothingElse :
    ∃ t, exec .corr .reset = .next t ∧ t.responses = State.reset.responses ++ [⟨true, 8⟩] := ⟨_, rfl, rfl⟩

/-- Each clause at a boundary: taps 0 and 11; k = 24 = NSAT and k = 31; GCNT = 1023; i = GCNT = 0. -/
theorem witness_GeneratorFaultOrder :
    ¬((1 ≤ (0#4).toNat ∧ (0#4).toNat ≤ 10) ∧ (1 ≤ (6#4).toNat ∧ (6#4).toNat ≤ 10)) ∧
    ¬((1 ≤ (10#4).toNat ∧ (10#4).toNat ≤ 10) ∧ (1 ≤ (11#4).toNat ∧ (11#4).toNat ≤ 10)) ∧
    State.reset.tapTable.nsat ≤ (24#5).toNat ∧ State.reset.tapTable.nsat ≤ (31#5).toNat ∧
    { State.reset with gcnt := 1023 }.gcnt = 1023 ∧
    (2#2 ≠ 3 ∧ State.reset.gcnt.toNat ≤ (0#10).toNat) := by decide

/-- Each clause at a boundary. -/
theorem witness_CorrelatorFaultOrder :
    { State.reset with chipcnt := 1023 }.chipcnt = 1023 ∧ State.reset.chipcnt.toNat ≤ (0#10).toNat ∧
    (1022#10 ≠ 1023 ∧ State.reset.chipcnt ≠ 1023) ∧
    (0#10 ≠ 1023 ∧ { State.reset with chipcnt := 1023 }.chipcnt = 1023 ∧
      { State.reset with chipcnt := 1023 }.gcnt ≠ 1023) ∧
    State.reset.tapTable.nsat ≤ (24#5).toNat ∧ 11 ≤ (11#4).toNat ∧ 11 ≤ (15#4).toNat := by decide

theorem witness_IllFormedCommandFaults : (Instr.rdreg 11).wellFormed = false ∧ (Instr.settap 0 6).wellFormed = false ∧
    (Instr.rdprn 3 0).wellFormed = false ∧ (Instr.rdprn 0 1023).wellFormed = false ∧
    (Instr.rdchip 1023).wellFormed = false ∧ (Instr.csum 1023).wellFormed = false := by decide

theorem witness_ErrAndCauseSteerNothing : Instr.gstep ≠ .rdreg 10 ∧ ∃ t, exec .gstep .reset = .next t :=
  ⟨by decide, _, rfl⟩

/-- The last register, the first number that names none, and the last number. -/
theorem witness_RdregReadsEveryRegister : 11 ≤ (11#4).toNat ∧ 11 ≤ (15#4).toNat := by decide

/-! #### The generator -/

/-- The taps 1 and 10 are the ends of the legal range, 0 and 11 the first values outside it. -/
theorem witness_SettapStartsGenerator :
    ((1 ≤ (1#4).toNat ∧ (1#4).toNat ≤ 10) ∧ (1 ≤ (10#4).toNat ∧ (10#4).toNat ≤ 10)) ∧
    ¬((1 ≤ (1#4).toNat ∧ (1#4).toNat ≤ 10) ∧ (1 ≤ (11#4).toNat ∧ (11#4).toNat ≤ 10)) := by decide

/-- The last entry of the default table, and the first index outside it. -/
theorem witness_SelsatLoadsTableEntry : State.reset.tapTable.toList[(23#5).toNat]? = some ⟨4, 6⟩ ∧
    State.reset.tapTable.nsat ≤ (24#5).toNat := by decide

/-- The last step of a period, and the step after it. -/
theorem witness_GstepEmitsAndAdvances :
    ({ State.reset with gcnt := 1022 }.gcnt ≠ 1023 ∧
      (1 ≤ State.reset.tap1.toNat ∧ State.reset.tap1.toNat ≤ 10) ∧
      (1 ≤ State.reset.tap2.toNat ∧ State.reset.tap2.toNat ≤ 10)) ∧
    { State.reset with gcnt := 1023 }.gcnt = 1023 := by decide

theorem witness_GenFillsPrnWithTheCode : (1 ≤ State.reset.tap1.toNat ∧ State.reset.tap1.toNat ≤ 10) ∧
    (1 ≤ State.reset.tap2.toNat ∧ State.reset.tap2.toNat ≤ 10) := by decide

theorem witness_GenIsGinitThenGsteps :
    (1 ≤ { State.reset with tap1 := 10 }.tap1.toNat ∧ { State.reset with tap1 := 10 }.tap1.toNat ≤ 10) ∧
    (1 ≤ { State.reset with tap1 := 10 }.tap2.toNat ∧ { State.reset with tap1 := 10 }.tap2.toNat ≤ 10) := by decide

theorem witness_RdprnViewsOneBit :
    (2#2 ≠ 3 ∧ (loaded 1 false 200).gcnt.toNat ≤ (1023#10).toNat) ∧ (1022#10).toNat < (loaded 1 false 200).gcnt.toNat ∧
      (loaded 1 false 200).prn.read (1022#10).toNat = some false :=
  ⟨by decide, by decide, loaded_bits 1 false 200 1022 (by decide)⟩

theorem witness_RegistersHaveFullPeriod : next1 ∈ [next1, next2] ∧ next2 ∈ [next1, next2] ∧ (0 < 1 ∧ 1 < 1023) ∧
    (0 < 1022 ∧ 1022 < 1023) ∧ (1#10 : BitVec 10) ≠ 0 := by simp

/-- The first and the last element of a code. -/
theorem witness_CodeSymmetryAndEqualTaps : 0 < 1023 ∧ 1022 < 1023 := by decide

theorem witness_DefaultCodesAreBalanced : (⟨2, 6⟩ : TapPair) ∈ Config.defaultTapTable.toList ∧
    (⟨4, 6⟩ : TapPair) ∈ Config.defaultTapTable.toList := by decide

/-! #### The correlator -/

/-- The last sample, and the sample after it. -/
theorem witness_LdchipAppendsOneSample : { State.reset with chipcnt := 1022 }.chipcnt ≠ 1023 ∧
    { State.reset with chipcnt := 1023 }.chipcnt = 1023 := by decide

theorem witness_RdchipReadsOneSample :
    ((1022#10).toNat < (loaded 0x80 true 200).chipcnt.toNat ∧
      Memory.read (loaded 0x80 true 200).chip (1022#10).toNat = some 0x80) ∧
    (loaded 0x80 true 200).chipcnt.toNat ≤ (1023#10).toNat :=
  ⟨⟨by decide, loaded_chips 0x80 true 200 1022 (by decide)⟩, by decide⟩

/-- The largest sum of all: 1023 samples −128 against 1023 bits 0, at the last offset. -/
theorem witness_CsumIsTheCircularSum :
    MemoryShape (loaded 0x80 false 200).block ∧ 1022#10 ≠ 1023 ∧ (loaded 0x80 false 200).chipcnt = 1023 ∧
    (loaded 0x80 false 200).gcnt = 1023 ∧
    (∀ j < 1023, Memory.read (loaded 0x80 false 200).chip j = some ((fun _ => 0x80) j)) ∧
    ∀ i < 1023, (loaded 0x80 false 200).prn.read i = some ((fun _ => false) i) :=
  ⟨loaded_shape .., by decide, rfl, rfl, loaded_chips 0x80 false 200, loaded_bits 0x80 false 200⟩

/-- Both outcomes: samples 1 give the sum 1023 > 1022; the same sum does not cross 1023. -/
theorem witness_CorrReportsFirstCrossing :
    (∀ th, MemoryShape (loaded 1 true th).block ∧ (loaded 1 true th).chipcnt = 1023 ∧ (loaded 1 true th).gcnt = 1023 ∧
      (∀ j < 1023, Memory.read (loaded 1 true th).chip j = some ((fun _ => 1) j)) ∧
      ∀ i < 1023, (loaded 1 true th).prn.read i = some ((fun _ => true) i)) ∧
    (loaded 1 true 1022).thresh.toNat < (circularSum (fun _ => 1) (fun _ => true) 0).natAbs ∧
    (circularSum (fun _ => 1) (fun _ => true) 1022).natAbs ≤ (loaded 1 true 1023).thresh.toNat := by
  refine ⟨fun th => ⟨loaded_shape .., rfl, rfl, loaded_chips 1 true th, loaded_bits 1 true th⟩, ?_, ?_⟩
  · rw [circularSum_constant]; decide
  · rw [circularSum_constant]; decide

/-- The largest sum of all, under both strategies, at the last offset. -/
theorem witness_SumsNeverOverflow :
    (Strategy.scalar = .scalar ∨ ∃ vw ∈ Config.vectorWidths, Strategy.scalar = .vectorized vw) ∧
    (Strategy.vectorized 16 = .scalar ∨ ∃ vw ∈ Config.vectorWidths, Strategy.vectorized 16 = .vectorized vw) ∧
    (List.replicate 1023 0x80#8).length = 1023 ∧ (List.replicate 1023 false).length = 1023 ∧ 1022 ≤ 1022 :=
  ⟨.inl rfl, .inr ⟨16, by decide, rfl⟩, List.length_replicate, List.length_replicate, le_rfl⟩

theorem witness_HighThresholdNeverDetects : (List.replicate 1023 0x80#8).length = 1023 ∧
    (List.replicate 1023 false).length = 1023 ∧ 130944 ≤ 130944 :=
  ⟨List.length_replicate, List.length_replicate, le_rfl⟩

theorem witness_ConstantChipsSum : (List.replicate 1023 true).length = 1023 ∧ 1022 ≤ 1022 :=
  ⟨List.length_replicate, le_rfl⟩

theorem witness_AutocorrelationPeak : ∃ (bits : List Bool) (chips : List Sample), bits.length = 1023 ∧
    chips = bits.map (fun b => if b then 1#8 else BitVec.ofInt 8 (-1)) := ⟨generate 2 6, _, length_generate 2 6, rfl⟩

theorem witness_ResetValues : ∃ (table : TapTable) (s : State), s = State.resetWith table :=
  ⟨⟨⟨2, 6⟩, [⟨10, 10⟩]⟩, _, rfl⟩

theorem witness_VectorizedSumIsScalarSum : 1 ∈ Config.vectorWidths ∧ 1024 ∈ Config.vectorWidths ∧
    (List.replicate 1023 0x80#8).length = 1023 ∧ (generate 2 6).length = 1023 ∧ 1022 ≤ 1022 :=
  ⟨by decide, by decide, List.length_replicate, length_generate 2 6, le_rfl⟩

theorem witness_StrategiesAgree : 1 ∈ Config.vectorWidths ∧ 1024 ∈ Config.vectorWidths ∧ 0 ≤ 1022 ∧ 1022 ≤ 1022 := by
  decide

/-! #### The scanner -/

theorem witness_ScanCorrelatesEveryEntry :
    MemoryShape (loaded 3 true 200).block ∧ LegalValues (loaded 3 true 200).block ∧ (loaded 3 true 200).chipcnt = 1023 ∧
      chipsAre (loaded 3 true 200).block (List.replicate 1023 3) :=
  ⟨loaded_shape .., loaded_legal .., rfl, loaded_chipsAre ..⟩

/-- SCAN completes on a loaded block, whatever its table of legal pairs. -/
theorem scan_loaded (v : Sample) (b : Bool) (th : BitVec 17) {table : TapTable} (h : tableLegal table = true) :
    ∃ t, exec .scan { loaded v b th with tapTable := table } = .next t := by
  obtain ⟨t, -, ht⟩ := blockScan_of_sequence (s := { loaded v b th with tapTable := table }.block) rfl h
    (loaded_sequences v b th).1
  exact ⟨_, serve_of_ok ht⟩

/-- The pair (2, 6) as entry 0 of one table and entry 1 of another, the generator in two different states. -/
theorem witness_SatellitesAreIndependent :
    ∃ s s' t t' : State, s.chip = s'.chip ∧ s.thresh = s'.thresh ∧ s.tapTable.toList[0]? = some ⟨2, 6⟩ ∧
      s'.tapTable.toList[1]? = some ⟨2, 6⟩ ∧ s.chipcnt = 1023 ∧ s'.chipcnt = 1023 ∧ exec .scan s = .next t ∧
      exec .scan s' = .next t' := by
  obtain ⟨t, ht⟩ := scan_loaded 3 true 200 (table := ⟨⟨2, 6⟩, []⟩) (by decide)
  obtain ⟨t', ht'⟩ := scan_loaded 3 false 200 (table := ⟨⟨10, 10⟩, [⟨2, 6⟩]⟩) (by decide)
  exact ⟨{ loaded 3 true 200 with tapTable := ⟨⟨2, 6⟩, []⟩ },
    { loaded 3 false 200 with tapTable := ⟨⟨10, 10⟩, [⟨2, 6⟩]⟩ }, t, t', rfl, rfl, rfl, rfl, rfl, rfl, ht, ht'⟩

theorem witness_RdsatReadsOneEntry : (0#5).toNat < State.reset.tapTable.nsat ∧ (23#5).toNat < State.reset.tapTable.nsat ∧
    State.reset.tapTable.nsat ≤ (24#5).toNat := by decide

/-! #### Frames -/

theorem witness_ReadersFrame : (∃ t, exec .nop .reset = .next t) ∧ (∃ t, exec (.rdreg 10) .reset = .next t) ∧
    (∃ t, exec (.rdprn 0 0) .reset = .next t) ∧ (∃ t, exec (.rdchip 0) .reset = .next t) ∧
    ∃ t, exec (.rdsat 0) .reset = .next t := ⟨⟨_, rfl⟩, ⟨_, rfl⟩, ⟨_, rfl⟩, ⟨_, rfl⟩, _, rfl⟩

/-- GEN completes on legal taps. -/
theorem gen_reset : ∃ t, exec .gen .reset = .next t :=
  have ⟨_, h⟩ := blockGen_of_tapsLegal (s := State.reset.block) (by decide)
  ⟨_, serve_of_ok h⟩

theorem witness_GeneratorFrame : (∃ t, exec (.settap 1 10) .reset = .next t) ∧
    (∃ t, exec (.selsat 23) .reset = .next t) ∧ (∃ t, exec .ginit .reset = .next t) ∧
    (∃ t, exec .gstep .reset = .next t) ∧ (∃ t, exec .gen .reset = .next t) ∧ 1 ≠ State.reset.gcnt.toNat :=
  ⟨⟨_, rfl⟩, ⟨_, rfl⟩, ⟨_, rfl⟩, ⟨_, rfl⟩, gen_reset, by decide⟩

theorem witness_LoadFrame : (∃ t, exec (.setthr 7) .reset = .next t) ∧ (∃ t, exec (.ldchip 7) .reset = .next t) ∧
    (∃ t, exec .clrchip .reset = .next t) ∧ 1 ≠ State.reset.chipcnt.toNat :=
  ⟨⟨_, rfl⟩, ⟨_, rfl⟩, ⟨_, rfl⟩, by decide⟩

/-- CSUM and CORR complete on a loaded block. -/
theorem csum_corr_loaded : (∃ t, exec (.csum 0) (loaded 1 true 200) = .next t) ∧
    ∃ t, exec .corr (loaded 1 true 200) = .next t :=
  have ⟨hc, hb⟩ := loaded_sequences 1 true 200
  ⟨⟨_, serve_of_ok (blockCsum_of_sequences (by decide) rfl rfl hc hb)⟩,
    _, serve_of_ok (blockCorr_of_sequences rfl rfl hc hb)⟩

theorem witness_CorrelatorAndScannerFrame : (∃ t, exec (.csum 0) (loaded 1 true 200) = .next t) ∧
    (∃ t, exec .corr (loaded 1 true 200) = .next t) ∧ ∃ t, exec .scan (loaded 1 true 200) = .next t :=
  ⟨csum_corr_loaded.1, csum_corr_loaded.2, scan_loaded 1 true 200 (table := Config.defaultTapTable) (by decide)⟩

theorem witness_OnlyLdchipWritesChip : (∃ t, exec .gstep .reset = .next t) ∧ (∃ t, exec .clrchip .reset = .next t) ∧
    (∀ v, Instr.gstep ≠ .ldchip v) ∧ (∀ v, Instr.clrchip ≠ .ldchip v) ∧ Instr.gstep ≠ .clrchip :=
  ⟨⟨_, rfl⟩, ⟨_, rfl⟩, (fun _ h => nomatch h), (fun _ h => nomatch h), by decide⟩

theorem witness_InputsInvalidateResults :
    (∃ t, exec .gstep .reset = .next t ∧ t.responses = State.reset.responses ++ [⟨false, 1⟩]) ∧
    (∃ t, exec (.setthr 200) .reset = .next t ∧ t.responses = State.reset.responses ++ [⟨false, 0⟩]) ∧
    ∃ t, exec (.settap 0 6) .reset = .next t ∧ t.responses = State.reset.responses ++ [⟨true, 3⟩] :=
  ⟨⟨_, rfl, rfl⟩, ⟨_, rfl, rfl⟩, _, rfl, rfl⟩

/-! #### Invariants -/

/-- The two-entry table of spec/95 section 2.3 is a configuration. -/
theorem witness_ResetMeetsInvariants : (TapTable.mk ⟨2, 6⟩ [⟨10, 10⟩]).nsat ≤ 32 ∧
    ∀ p ∈ (TapTable.mk ⟨2, 6⟩ [⟨10, 10⟩]).toList,
      (1 ≤ p.tap1.toNat ∧ p.tap1.toNat ≤ 10) ∧ (1 ≤ p.tap2.toNat ∧ p.tap2.toNat ≤ 10) := by
  constructor
  · decide
  · simp [TapTable.toList]

/-- A block with everything loaded, about to take CORR. -/
theorem loaded_with_corr : ∃ t, step ((loaded 1 true 200).withFetchWord 32 0x25000000) = .next t ∧
    LegalValues ((loaded 1 true 200).withFetchWord 32 0x25000000).block ∧
    MemoryShape ((loaded 1 true 200).withFetchWord 32 0x25000000).block := by
  obtain ⟨t, ht⟩ := csum_corr_loaded.2
  refine ⟨t, ht, ?_, ?_⟩
  · obtain ⟨h1, h2, h3, h4, h5, h6, h7, h8, h9, h10, h11, h12⟩ := loaded_legal 1 true 200
    exact ⟨h1, h2, h3, h4, h5, h6, h7, h8, h9, h10, h11, h12⟩
  · obtain ⟨h1, h2, h3, h4, h5, h6⟩ := loaded_shape 1 true 200
    exact ⟨h1, h2, h3, h4, h5, h6⟩

theorem witness_StepKeepsLegalValues :
    ∃ s t : State, LegalValues s.block ∧ step s = .next t :=
  have ⟨t, h1, h2, _⟩ := loaded_with_corr
  ⟨_, t, h2, h1⟩

theorem witness_StepKeepsMemoryShape : ∃ s t : State, MemoryShape s.block ∧ step s = .next t :=
  have ⟨t, h1, _, h2⟩ := loaded_with_corr
  ⟨_, t, h2, h1⟩

theorem witness_StepAlwaysAnswers : ∃ s : State, LegalValues s.block ∧ MemoryShape s.block :=
  have ⟨_, _, h1, h2⟩ := loaded_with_corr
  ⟨_, h1, h2⟩

/-- After one GSTEP from reset, about to take another (spec/95 section 2.1, step 1 of the trace). -/
theorem witness_StepKeepsGeneratorInvariant :
    ∃ s t : State, GeneratorInvariant s.block ∧ s.gcnt = 1 ∧ step s = .next t := by
  refine ⟨{ State.reset with
    g1 := 0x1FF, g2 := 0x1FF, gcnt := 1, prn := [(0, true)], inputs := [.command 0x13000000] }, _, ⟨fun i => ?_, ?_, ?_⟩,
    rfl, rfl⟩
  · show Memory.read [(0, true)] i = ((generate 2 6).take 1)[i]?
    rw [List.getElem?_take]
    split_ifs with h
    · obtain rfl : i = 0 := Nat.lt_one_iff.1 h
      rw [getElem?_generate _ _ (by decide)]
      decide
    · rw [Memory.read, if_neg (by rintro rfl; exact h (by decide))]; rfl
  · decide
  · decide

/-- A block whose RESULT is the correlation of what it holds, about to take NOP. -/
theorem witness_StepKeepsResultInvariant :
    ∃ s t : State, ResultInvariant s.block ∧ s.rdone = true ∧ step s = .next t := by
  have key : ∀ d : Detection, d = correlate (List.replicate 1023 1) (List.replicate 1023 true)
      (loaded 1 true 200).thresh.toNat →
      ResultInvariant { (loaded 1 true 200).block with rdone := true, result := d } := fun d h =>
    ⟨fun _ => ⟨rfl, rfl, _, _, loaded_chipsAre 1 true 200, loaded_prnIs 1 true 200, h⟩, fun h => nomatch h⟩
  exact ⟨{ loaded 1 true 200 with rdone := true, result := _, inputs := [.command 0] }, _, key _ rfl, rfl, rfl⟩

/-! #### Pseudo-instructions -/

theorem witness_CorrtapIsCorrelateOfGenerate :
    (1 ≤ (1#4).toNat ∧ (1#4).toNat ≤ 10) ∧ (1 ≤ (10#4).toNat ∧ (10#4).toNat ≤ 10) ∧
      MemoryShape (loaded 3 true 200).block ∧
      (loaded 3 true 200).chipcnt = 1023 ∧ chipsAre (loaded 3 true 200).block (List.replicate 1023 3) :=
  ⟨by decide, by decide, loaded_shape .., rfl, loaded_chipsAre ..⟩

theorem witness_LoadFillsChip : (List.replicate 1023 0x80#8).length = 1023 := List.length_replicate

end Sys2Proof.Tests
end

/-! The state's own invariants (10_state.md): facts about the shared operations that each invariant needs, then one
`KeptByEffects` per invariant, from which the step lemma follows. -/

namespace Sys2Proof.Machine

/-! ### Sums and detections -/

/-- Every sum with a whole code has magnitude at most 128 · 1023 (R127). -/
theorem natAbs_scalarSum_le (chips : List Sample) {bits : List Bool} (hb : bits.length = 1023) (o : Nat) :
    (scalarSum chips bits o).natAbs ≤ 130944 := by
  have h := natAbs_dotSigns_le (rotateChips o chips) bits
  rwa [hb] at h

/-- The sum a search stops at is one of the sums, so it has their bound. -/
theorem natAbs_search_sum_le (chips : List Sample) {bits : List Bool} (hb : bits.length = 1023) (th : Nat) :
    (search (scalarSum chips bits) th).sum.natAbs ≤ 130944 := by
  rw [(search_spec _ th).1]
  exact natAbs_scalarSum_le chips hb _

/-- A search whose sums cannot pass the threshold finds nothing. -/
theorem search_found_eq_false {sum : Nat → Int} {th : Nat} (h : ∀ o, (sum o).natAbs ≤ th) :
    (search sum th).found = false := by
  obtain ⟨-, -, -, hfound, -⟩ := search_spec sum th
  rw [hfound]
  simpa [exceeds] using h _

theorem detectionOf_of_not_found {r : Search} (h : r.found = false) : detectionOf r = Detection.absent := by
  simp [detectionOf, h]

theorem detectionLegal_absent : detectionLegal Detection.absent := ⟨Nat.zero_le _, fun _ => ⟨rfl, rfl⟩⟩

/-- What a search over the offsets 0..1022 reports is a legal detection (R39, R85). -/
theorem detectionLegal_search (sum : Nat → Int) (th : Nat) : detectionLegal (detectionOf (search sum th)) := by
  obtain ⟨-, hoff, -⟩ := search_spec sum th
  cases hf : (search sum th).found with
  | false => rw [detectionOf_of_not_found hf]; exact detectionLegal_absent
  | true =>
    refine ⟨?_, fun hdet => ?_⟩
    · simp only [detectionOf, hf, if_true, BitVec.toNat_ofNat]
      exact (Nat.mod_le _ _).trans hoff
    · rw [detectionOf_det, hf] at hdet
      cases hdet

/-! ### Counters, elements and the record of a fault -/

/-- A 10-bit counter that is not at 1023 counts on without wrapping (R22, R25). -/
theorem toNat_add_one {x : BitVec 10} (h : x.toNat ≠ 1023) : (x + 1).toNat = x.toNat + 1 := by
  bv_omega

theorem chipcnt_ne_of_not_full {s : Block} (h : chipFull s = false) : s.chipcnt.toNat ≠ 1023 := by
  rwa [← Bool.not_eq_true, chipFull_iff] at h

theorem gcnt_ne_of_not_full {s : Block} (h : prnFull s = false) : s.gcnt.toNat ≠ 1023 := by
  rwa [← Bool.not_eq_true, prnFull_iff] at h

/-- Writing the element at the counter makes one more element have a value (R98, R111). -/
theorem Memory.elements_write {α : Type} {m : Memory α} {n : Nat} (h : ∀ i, (∃ v, m.read i = some v) ↔ i < n) (v : α)
    (i : Nat) : (∃ u, (m.write n v).read i = some u) ↔ i < n + 1 := by
  simp only [Memory.read_isSome_iff] at h ⊢
  rw [Memory.keys_write, h]
  omega

theorem Memory.elements_nil {α : Type} (i : Nat) : (∃ v, Memory.read ([] : Memory α) i = some v) ↔ i < 0 := by
  simp

/-- A memory with a whole sequence is canonical and its elements with a value are exactly those of the sequence. -/
theorem Memory.shape_of_sequence {α : Type} {m : Memory α} {n : Nat} {l : List α} (h : m.sequence n = some l) :
    m.wf ∧ ∀ i, (∃ v, m.read i = some v) ↔ i < n := by
  obtain ⟨hkeys, -⟩ := Memory.sequence_eq_some.1 h
  refine ⟨?_, fun i => ?_⟩
  · rw [Memory.wf, hkeys]
    exact List.pairwise_lt_range
  · rw [Memory.read_isSome_iff, hkeys, List.mem_range]

/-- Taking a fault writes ERR and CAUSE and nothing else (R153). -/
theorem recordCause_eq (c : Cause) (s : Block) :
    recordCause c s = { s with err := true, cause := if s.err then s.cause else c.code } := by
  cases s
  unfold recordCause
  split <;> simp_all

/-! ### The tap table (R34) -/

/-- The table is a constant of every effect. -/
theorem tapTable_kept (table : TapTable) : KeptByEffects (fun b => b.tapTable = table) where
  fault s c hs := by rwa [recordCause_tapTable]
  reset _ hs := hs
  settap _ _ _ hs _ := hs
  selsat _ _ _ hs _ := hs
  ginit _ hs := hs
  gstep _ hs _ _ := hs
  gen _ _ hs h := (congrArg Block.tapTable (runGenerator_spec h).1).trans hs
  clrchip _ hs := hs
  ldchip _ _ hs _ := hs
  setthr _ _ hs := hs
  csum _ _ _ hs _ _ := hs
  corr _ _ _ hs _ _ _ _ := hs
  scan _ _ hs _ h := (congrArg Block.tapTable (scanState_frame h)).trans hs

/-! ### The generator invariant (R24) -/

/-- A generator that has just been started meets the invariant: GCNT = 0 and no bit emitted. -/
theorem generatorInvariant_of_started {s : Block} (hprn : s.prn = []) (hcnt : s.gcnt = 0) (hg1 : s.g1 = 0x3FF)
    (hg2 : s.g2 = 0x3FF) : GeneratorInvariant s where
  prn i := by simp [hprn, hcnt]
  g1 := by simp [hg1, hcnt, shiftTimes]
  g2 := by simp [hg2, hcnt, shiftTimes]

/-- A generator that has emitted its whole code meets the invariant: GCNT = 1023. -/
theorem generatorInvariant_of_generated {s : Block} (hprn : s.prn.sequence 1023 = some (generate s.tap1 s.tap2))
    (hcnt : s.gcnt = 1023#10) (hg1 : s.g1 = shiftTimes next1 1023 0x3FF) (hg2 : s.g2 = shiftTimes next2 1023 0x3FF) :
    GeneratorInvariant s where
  prn i := by
    rw [(Memory.sequence_spec hprn).2, hcnt]
    exact congrArg (·[i]?) (List.take_of_length_le (by simp)).symm
  g1 := by rw [hg1, hcnt]; rfl
  g2 := by rw [hg2, hcnt]; rfl

/-- The bit emitted next is the code's bit at GCNT. -/
theorem getElem?_generate_gcnt {s : Block} (h : GeneratorInvariant s) (hn : s.gcnt.toNat < 1023) :
    (generate s.tap1 s.tap2)[s.gcnt.toNat]? = some (nextBit s) := by
  rw [getElem?_generate _ _ hn, ← h.g1, ← h.g2]
  rfl

theorem generatorInvariant_generatorStep {s : Block} (h : GeneratorInvariant s) (hn : s.gcnt.toNat ≠ 1023) :
    GeneratorInvariant (generatorStep s) := by
  have hcnt : (generatorStep s).gcnt.toNat = s.gcnt.toNat + 1 := toNat_add_one hn
  refine ⟨fun i => ?_, ?_, ?_⟩
  · have hlt : s.gcnt.toNat < 1023 := by omega
    rw [hcnt, generatorStep_prn, generatorStep_tap1, generatorStep_tap2, Memory.read_write, h.prn, List.getElem?_take,
      List.getElem?_take]
    rcases Nat.lt_trichotomy i s.gcnt.toNat with hi | rfl | hi
    · rw [if_neg (by omega), if_pos hi, if_pos (by omega)]
    · rw [if_pos rfl, if_pos (by omega), getElem?_generate_gcnt h hlt]
    · rw [if_neg (by omega), if_neg (by omega), if_neg (by omega)]
  · rw [hcnt, generatorStep_g1, shiftTimes_succ, ← h.g1]
  · rw [hcnt, generatorStep_g2, shiftTimes_succ, ← h.g2]

theorem generatorInvariant_kept : KeptByEffects GeneratorInvariant where
  fault s c hs := by rw [recordCause_eq]; exact ⟨hs.prn, hs.g1, hs.g2⟩
  reset _ _ := generatorInvariant_of_started rfl rfl rfl rfl
  settap _ _ _ _ _ := generatorInvariant_of_started rfl rfl rfl rfl
  selsat _ _ _ _ _ := generatorInvariant_of_started rfl rfl rfl rfl
  ginit _ _ := generatorInvariant_of_started rfl rfl rfl rfl
  gstep _ hs hfull _ := generatorInvariant_generatorStep hs (gcnt_ne_of_not_full hfull)
  gen s t _ h := by
    obtain ⟨ht, hg1, hg2, hprn⟩ := runGenerator_spec h
    rw [ht]
    exact generatorInvariant_of_generated hprn rfl hg1 hg2
  clrchip _ hs := ⟨hs.prn, hs.g1, hs.g2⟩
  ldchip _ _ hs _ := ⟨hs.prn, hs.g1, hs.g2⟩
  setthr _ _ hs := ⟨hs.prn, hs.g1, hs.g2⟩
  csum _ _ _ hs _ _ := ⟨hs.prn, hs.g1, hs.g2⟩
  corr _ _ _ hs _ _ _ _ := ⟨hs.prn, hs.g1, hs.g2⟩
  scan s t _ _ h := by
    obtain ⟨_, p, _, -, -, -, -, -, htap1, htap2, hg1, hg2, hcnt, hprn, -⟩ := scanState_spec h
    exact generatorInvariant_of_generated (by rw [htap1, htap2]; exact hprn) hcnt hg1 hg2

/-! ### The shape of the memories (R23, R26, R45) -/

theorem memoryShape_resetWith (table : TapTable) : MemoryShape (Block.resetWith table) :=
  have ⟨hprn, hchip, hresults⟩ := reset_memories_canonical table
  ⟨hprn, hchip, hresults, Memory.elements_nil, Memory.elements_nil, nofun⟩

theorem memoryShape_startGenerator {s : Block} (h : MemoryShape s) : MemoryShape (startGenerator s) :=
  { h with prnCanonical := Memory.wf_nil, prnElements := Memory.elements_nil }

theorem memoryShape_generatorStep {s : Block} (h : MemoryShape s) (hn : s.gcnt.toNat ≠ 1023) :
    MemoryShape (generatorStep s) :=
  { h with
    prnCanonical := wf_generatorStep h.prnCanonical
    prnElements := fun i => by
      rw [generatorStep_gcnt, toNat_add_one hn]
      exact Memory.elements_write h.prnElements _ i }

/-- A PRN memory that holds a whole code, with GCNT = 1023, is as R23 says. -/
theorem memoryShape_of_code {s : Block} (h : MemoryShape s) {m : Memory Bool} {code : List Bool}
    (hm : m.sequence 1023 = some code) : MemoryShape { s with gcnt := 1023#10, prn := m } :=
  have ⟨hwf, helements⟩ := Memory.shape_of_sequence hm
  { h with prnCanonical := hwf, prnElements := helements }

theorem memoryShape_clearResults {s : Block} (h : MemoryShape s) : MemoryShape (clearResults s) :=
  { h with resultsCanonical := ⟨Memory.wf_nil, nofun⟩, resultElements := nofun }

theorem memoryShape_ldchip {s : Block} (h : MemoryShape s) (v : Sample) (hn : s.chipcnt.toNat ≠ 1023) :
    MemoryShape { s with chip := Memory.write s.chip s.chipcnt.toNat v, chipcnt := s.chipcnt + 1 } :=
  { h with
    chipCanonical := Memory.wf_write h.chipCanonical _ _
    chipElements := fun j => by
      rw [toNat_add_one hn]
      exact Memory.elements_write h.chipElements v j }

theorem memoryShape_scanState {s t : Block} (hs : MemoryShape s) (h : scanState .scalar s = .ok t) : MemoryShape t := by
  obtain ⟨-, _, -, -, -, -, -, -, -, -, -, -, hcnt, hprn, -⟩ := scanState_spec h
  obtain ⟨-, u, hu, htu⟩ := scanState_eq_ok.1 h
  obtain ⟨hcanonical, helements⟩ :=
    scanFrom_results hu hs.resultsCanonical hs.resultElements (Nat.zero_add _).le
  have hresults : t.results = u.results := by rw [htu]
  have hshape := memoryShape_of_code hs hprn
  rw [scanState_frame h, hcnt, hresults]
  exact { hshape with resultsCanonical := hcanonical, resultElements := helements }

theorem memoryShape_kept : KeptByEffects MemoryShape where
  fault s c hs := by rw [recordCause_eq]; exact { hs with }
  reset _ _ := memoryShape_resetWith _
  settap _ _ _ hs _ := memoryShape_startGenerator { hs with }
  selsat _ _ _ hs _ := memoryShape_startGenerator { hs with }
  ginit _ hs := memoryShape_startGenerator hs
  gstep _ hs hfull _ := memoryShape_generatorStep hs (gcnt_ne_of_not_full hfull)
  gen s t hs h := by
    obtain ⟨ht, -, -, hprn⟩ := runGenerator_spec h
    have hshape := memoryShape_of_code hs hprn
    rw [ht]
    exact { hshape with }
  clrchip _ hs :=
    memoryShape_clearResults { hs with chipCanonical := Memory.wf_nil, chipElements := Memory.elements_nil }
  ldchip _ v hs hfull := memoryShape_clearResults (memoryShape_ldchip hs v (chipcnt_ne_of_not_full hfull))
  setthr _ _ hs := memoryShape_clearResults { hs with }
  csum _ _ _ hs _ _ := { hs with }
  corr _ _ _ hs _ _ _ _ := { hs with }
  scan _ _ hs _ h := memoryShape_scanState hs h

/-! ### The result invariant (R32) -/

/-- With RDONE = 0 and SDONE = 0 nothing is claimed of the stored results. -/
theorem resultInvariant_of_cleared {s : Block} (hr : s.rdone = false) (hs : s.sdone = false) : ResultInvariant s where
  rdone h := by rw [hr] at h; cases h
  sdone h := by rw [hs] at h; cases h

/-- An operation that clears RDONE and keeps CHIP, THRESH, the table and RESULTS keeps the invariant: what SDONE says
is not about the generator. -/
theorem resultInvariant_of_rdone_cleared {s t : Block} (h : ResultInvariant s) (hrdone : t.rdone = false)
    (hsdone : t.sdone = s.sdone) (hcnt : t.chipcnt = s.chipcnt) (hchip : t.chip = s.chip) (hth : t.thresh = s.thresh)
    (hresults : t.results = s.results) (htable : t.tapTable = s.tapTable) : ResultInvariant t where
  rdone hr := by rw [hrdone] at hr; cases hr
  sdone := by
    have hscan := h.sdone
    unfold chipsAre resultEntry at hscan ⊢
    rwa [hsdone, hcnt, hchip, hth, hresults, htable]

theorem resultInvariant_storeSearch {s : Block} (h : ResultInvariant s) (hchip : chipFull s = true)
    (hprn : prnFull s = true) {chips : List Sample} {bits : List Bool} (hc : Memory.sequence s.chip 1023 = some chips)
    (hb : s.prn.sequence 1023 = some bits) :
    ResultInvariant (storeSearch (search (scalarSum chips bits) s.thresh.toNat) s) where
  rdone _ := ⟨prnFull_iff.1 hprn, chipFull_iff.1 hchip, chips, bits, chipsAre_of_sequence hc, prnIs_of_sequence hb, rfl⟩
  sdone := h.sdone

/-- SCAN establishes both halves, whatever the state before: RESULT for the last entry, RESULTS for every entry. -/
theorem resultInvariant_scanState {s t : Block} (hfull : chipFull s = true) (h : scanState .scalar s = .ok t) :
    ResultInvariant t := by
  obtain ⟨chips, p, _, hchips, -, -, hentries, -, -, -, -, -, hcnt, hprn, -, rfl, -, -, hresult⟩ := scanState_spec h
  obtain ⟨hchip, hchipcnt, hth, htable⟩ :
      t.chip = s.chip ∧ t.chipcnt = s.chipcnt ∧ t.thresh = s.thresh ∧ t.tapTable = s.tapTable := by
    rw [scanState_frame h]
    exact ⟨rfl, rfl, rfl, rfl⟩
  have hare : chipsAre t chips := chipsAre_of_sequence (by rwa [hchip])
  have hcount : t.chipcnt.toNat = 1023 := by rw [hchipcnt]; exact chipFull_iff.1 hfull
  refine ⟨fun _ => ⟨by rw [hcnt]; rfl, hcount, chips, _, hare, prnIs_of_sequence hprn, ?_⟩,
    fun _ => ⟨hcount, chips, hare, fun k q hq => ?_⟩⟩
  · rw [hresult, hth]; rfl
  · rw [hentries k, ← htable, hq, hth]

theorem resultInvariant_kept : KeptByEffects ResultInvariant where
  fault s c hs := by rw [recordCause_eq]; exact ⟨hs.rdone, hs.sdone⟩
  reset _ _ := resultInvariant_of_cleared rfl rfl
  settap _ _ _ hs _ := resultInvariant_of_rdone_cleared hs rfl rfl rfl rfl rfl rfl rfl
  selsat _ _ _ hs _ := resultInvariant_of_rdone_cleared hs rfl rfl rfl rfl rfl rfl rfl
  ginit _ hs := resultInvariant_of_rdone_cleared hs rfl rfl rfl rfl rfl rfl rfl
  gstep _ hs _ _ := resultInvariant_of_rdone_cleared hs rfl rfl rfl rfl rfl rfl rfl
  gen s t hs h := by
    rw [(runGenerator_spec h).1]
    exact resultInvariant_of_rdone_cleared hs rfl rfl rfl rfl rfl rfl rfl
  clrchip _ _ := resultInvariant_of_cleared rfl rfl
  ldchip _ _ _ _ := resultInvariant_of_cleared rfl rfl
  setthr _ _ _ := resultInvariant_of_cleared rfl rfl
  csum _ _ _ hs _ _ := ⟨hs.rdone, hs.sdone⟩
  corr _ _ _ hs hchip hprn hc hb := resultInvariant_storeSearch hs hchip hprn hc hb
  scan _ _ _ hfull h := resultInvariant_scanState hfull h

/-! ### The legal values (R39) -/

theorem legalValues_resetWith {table : TapTable} (hn : table.nsat ≤ 32)
    (hp : ∀ p ∈ table.toList, (1 ≤ p.tap1.toNat ∧ p.tap1.toNat ≤ 10) ∧ (1 ≤ p.tap2.toNat ∧ p.tap2.toNat ≤ 10)) :
    LegalValues (Block.resetWith table) where
  table := ⟨Nat.succ_pos _, hn, hp⟩
  taps := hp table.first List.mem_cons_self
  sat := Nat.succ_pos _
  gcnt := Nat.zero_le _
  chipcnt := Nat.zero_le _
  ofs := Nat.zero_le _
  result := detectionLegal_absent
  entries _ _ := detectionLegal_absent
  acc := Nat.zero_le _
  cause := ⟨Nat.zero_le _, fun _ => rfl, fun _ => rfl⟩
  rdone _ := rfl
  sdone _ _ _ := rfl

theorem legalValues_recordCause {s : Block} (h : LegalValues s) (c : Cause) : LegalValues (recordCause c s) := by
  rw [recordCause_eq]
  refine { h with cause := ?_ }
  cases herr : s.err with
  | false => simp
  | true => simpa [herr] using h.cause

theorem legalValues_clearResult {s : Block} (h : LegalValues s) : LegalValues (clearResult s) :=
  { h with result := detectionLegal_absent, rdone := fun _ => rfl }

theorem legalValues_clearResults {s : Block} (h : LegalValues s) : LegalValues (clearResults s) :=
  { legalValues_clearResult h with entries := fun _ _ => detectionLegal_absent, sdone := fun _ _ _ => rfl }

theorem legalValues_startGenerator {s : Block} (h : LegalValues s) : LegalValues (startGenerator s) :=
  { legalValues_clearResult h with gcnt := Nat.zero_le _ }

theorem legalValues_loadTaps {s : Block} (h : LegalValues s) {p : TapPair}
    (hp : (1 ≤ p.tap1.toNat ∧ p.tap1.toNat ≤ 10) ∧ (1 ≤ p.tap2.toNat ∧ p.tap2.toNat ≤ 10)) :
    LegalValues (loadTaps p s) :=
  legalValues_startGenerator { h with taps := hp }

/-- A table entry that exists has legal taps, and its index is a legal SAT. -/
theorem legalValues_selectEntry {s : Block} (h : LegalValues s) {k : BitVec 5} {p : TapPair}
    (hp : s.tapTable.toList[k.toNat]? = some p) : LegalValues (selectEntry k.toNat p s) := by
  have hk : k.toNat < s.tapTable.nsat := toList_getElem?_isSome.1 ⟨p, hp⟩
  have hsat : (BitVec.ofNat 5 k.toNat).toNat < s.tapTable.nsat := by rwa [BitVec.ofNat_toNat, BitVec.setWidth_eq]
  have hselected : LegalValues { s with sat := BitVec.ofNat 5 k.toNat } := { h with sat := hsat }
  exact legalValues_loadTaps hselected (h.table.2.2 p (List.mem_of_getElem? hp))

theorem legalValues_generatorStep {s : Block} (h : LegalValues s) : LegalValues (generatorStep s) :=
  { legalValues_clearResult h with gcnt := Nat.le_of_lt_succ (s.gcnt + 1).isLt }

theorem legalValues_storeSum {s : Block} (h : LegalValues s) {z : Int} (hz : z.natAbs ≤ 130944) {o : Nat}
    (ho : o ≤ 1022) : LegalValues (storeSum z o s) :=
  { h with
    acc := by rwa [storeSum_acc, toInt_ofInt_of_bound hz]
    ofs := by rw [storeSum_ofs, BitVec.toNat_ofNat]; exact (Nat.mod_le _ _).trans ho }

theorem legalValues_storeSearch {s : Block} (h : LegalValues s) (chips : List Sample) {bits : List Bool}
    (hb : bits.length = 1023) (th : Nat) : LegalValues (storeSearch (search (scalarSum chips bits) th) s) :=
  have hsum := legalValues_storeSum h (natAbs_search_sum_le chips hb th) (search_spec _ th).2.1
  { hsum with result := detectionLegal_search _ th, rdone := nofun }

/-- SCAN leaves legal values: the taps and SAT of a table entry, and a correlation in RESULT and in every entry. -/
theorem legalValues_scanState {s t : Block} (hs : LegalValues s) (h : scanState .scalar s = .ok t) : LegalValues t := by
  obtain ⟨chips, p, r, -, -, hp, hentries, hsat, htap1, htap2, -, -, hcnt, -, hrdone, hr, hacc, hofs, hresult⟩ :=
    scanState_spec h
  have hsearch := legalValues_storeSearch hs chips (length_generate p.tap1 p.tap2) s.thresh.toNat
  rw [← hr] at hsearch
  have hlegal : ∀ k < s.tapTable.nsat, detectionLegal (resultEntry t k) := fun k hk => by
    obtain ⟨q, hq⟩ := toList_getElem?_isSome.2 hk
    rw [hentries k, hq]
    exact detectionLegal_search _ _
  have hsat' : t.sat.toNat < s.tapTable.nsat := by omega
  rw [scanState_frame h, htap1, htap2, hcnt, hacc, hofs, hresult, hrdone]
  exact { hsearch with
    taps := hs.table.2.2 p hp, sat := hsat', gcnt := le_rfl, entries := hlegal, sdone := nofun }

theorem legalValues_kept : KeptByEffects LegalValues where
  fault _ c hs := legalValues_recordCause hs c
  reset _ hs := legalValues_resetWith hs.table.2.1 hs.table.2.2
  settap _ _ _ hs hp := legalValues_loadTaps hs (pairLegal_iff.1 hp)
  selsat _ _ _ hs hp := legalValues_selectEntry hs hp
  ginit _ hs := legalValues_startGenerator hs
  gstep _ hs _ _ := legalValues_generatorStep hs
  gen s t hs h := by
    rw [(runGenerator_spec h).1]
    exact { legalValues_startGenerator hs with gcnt := le_rfl }
  clrchip _ hs := legalValues_clearResults { hs with chipcnt := Nat.zero_le _ }
  ldchip s _ hs _ := legalValues_clearResults { hs with chipcnt := Nat.le_of_lt_succ (s.chipcnt + 1).isLt }
  setthr _ _ hs := legalValues_clearResults { hs with }
  csum _ o _ hs ho hz := legalValues_storeSum hs hz (by omega)
  corr _ chips _ hs _ _ _ hb := legalValues_storeSearch hs chips (Memory.sequence_spec hb).1 _
  scan _ _ hs _ h := legalValues_scanState hs h

/-! ### What a completing command clears, and that a faulting one clears nothing (R30, R31, R153) -/

/-- A command whose response has fault = 1 has taken a fault and done nothing else (R153). -/
theorem recordCause_of_fault {i : Instr} {s t : Block} {d : Word} (h : blockCommand i s = .ok (t, ⟨true, d⟩)) :
    ∃ c, t = recordCause c s := by
  cases i with
  | nop => cases (blockNop_cases h).2
  | rdreg r =>
    rcases blockRdreg_cases h with ⟨_, -, -, ha⟩ | ⟨-, ht, -⟩
    exacts [(nomatch ha), ⟨_, ht⟩]
  | settap t1 t2 =>
    rcases blockSettap_cases h with ⟨-, -, ha⟩ | ⟨-, ht, -⟩
    exacts [(nomatch ha), ⟨_, ht⟩]
  | selsat k =>
    rcases blockSelsat_cases h with ⟨_, -, -, ha⟩ | ⟨-, ht, -⟩
    exacts [(nomatch ha), ⟨_, ht⟩]
  | ginit => cases (blockGinit_cases h).2
  | gstep =>
    rcases blockGstep_cases h with ⟨-, -, -, ha⟩ | ⟨-, ht, -⟩
    exacts [(nomatch ha), ⟨_, ht⟩]
  | gen => cases (blockGen_cases h).2
  | rdprn enc j =>
    rcases blockRdprn_cases h with ⟨-, ht, -⟩ | ⟨-, -, ht, -⟩ | ⟨-, -, _, -, -, ha⟩
    exacts [⟨_, ht⟩, ⟨_, ht⟩, nomatch ha]
  | clrchip => cases (blockClrchip_cases h).2
  | ldchip v =>
    rcases blockLdchip_cases h with ⟨-, -, ha⟩ | ⟨-, ht, -⟩
    exacts [(nomatch ha), ⟨_, ht⟩]
  | rdchip j =>
    rcases blockRdchip_cases h with ⟨-, ht, -⟩ | ⟨-, _, -, -, ha⟩
    exacts [⟨_, ht⟩, nomatch ha]
  | setthr v => cases (blockSetthr_cases h).2
  | csum o =>
    rcases blockCsum_cases h with ⟨c, ht, -⟩ | ⟨-, -, -, _, _, -, -, -, ha⟩
    exacts [⟨c, ht⟩, nomatch ha]
  | corr =>
    rcases blockCorr_cases h with ⟨c, ht, -⟩ | ⟨-, -, _, _, _, -, -, -, -, ha⟩
    exacts [⟨c, ht⟩, nomatch ha]
  | scan =>
    rcases blockScan_cases h with ⟨-, ht, -⟩ | ⟨-, -, ha⟩
    exacts [⟨_, ht⟩, nomatch ha]
  | rdsat k =>
    rcases blockRdsat_cases h with ⟨-, -, ha⟩ | ⟨-, ht, -⟩
    exacts [(nomatch ha), ⟨_, ht⟩]

/-- CLRCHIP, LDCHIP and SETTHR, when they complete, end by clearing every result (R31). -/
theorem clearResults_of_complete {i : Instr} {s t : Block} {d : Word} (h : blockCommand i s = .ok (t, ⟨false, d⟩))
    (hi : i = .clrchip ∨ (∃ v, i = .ldchip v) ∨ ∃ v, i = .setthr v) : ∃ u, t = clearResults u := by
  rcases hi with rfl | ⟨v, rfl⟩ | ⟨v, rfl⟩
  · exact ⟨_, (blockClrchip_cases h).1⟩
  · rcases blockLdchip_cases h with ⟨-, ht, -⟩ | ⟨-, -, ha⟩
    exacts [⟨_, ht⟩, nomatch ha]
  · exact ⟨_, (blockSetthr_cases h).1⟩

/-- The five generator commands, when they complete, leave RDONE = 0 and RESULT = 0 (R30). -/
theorem result_cleared_of_generator_complete {i : Instr} {s t : Block} {d : Word}
    (h : blockCommand i s = .ok (t, ⟨false, d⟩))
    (hi : (∃ t1 t2, i = .settap t1 t2) ∨ (∃ k, i = .selsat k) ∨ i = .ginit ∨ i = .gstep ∨ i = .gen) :
    t.rdone = false ∧ t.result = Detection.absent := by
  rcases hi with ⟨t1, t2, rfl⟩ | ⟨k, rfl⟩ | rfl | rfl | rfl
  · rcases blockSettap_cases h with ⟨-, rfl, -⟩ | ⟨-, -, ha⟩
    exacts [⟨rfl, rfl⟩, nomatch ha]
  · rcases blockSelsat_cases h with ⟨_, -, rfl, -⟩ | ⟨-, -, ha⟩
    exacts [⟨rfl, rfl⟩, nomatch ha]
  · rw [(blockGinit_cases h).1]
    exact ⟨rfl, rfl⟩
  · rcases blockGstep_cases h with ⟨-, -, rfl, -⟩ | ⟨-, -, ha⟩
    exacts [⟨rfl, rfl⟩, nomatch ha]
  · rw [(runGenerator_spec (blockGen_cases h).1).1]
    exact ⟨rfl, rfl⟩

/-- The response a command appended is the one its transition answered. -/
theorem blockCommand_of_exec {i : Instr} {s t : State} {r : Response} (h : exec i s = .next t)
    (hr : t.responses = s.responses ++ [r]) : blockCommand i s.block = .ok (t.block, r) := by
  rw [exec_eq_serve] at h
  obtain ⟨b, r', hb, rfl⟩ := serve_eq_next.1 h
  rw [reply_responses, List.append_cancel_left_eq, List.singleton_inj] at hr
  rwa [hr] at hb

/-! ### The obligations -/

/-- Settles O53: every effect of a command or a reset keeps the legal values. -/
theorem stepKeepsLegalValues : Obligations.StepKeepsLegalValues :=
  fun _ _ hs h => legalValues_kept.step hs h

/-- Settles O54: every effect keeps the memories canonical and their elements those the counters say. -/
theorem stepKeepsMemoryShape : Obligations.StepKeepsMemoryShape :=
  fun _ _ hs h => memoryShape_kept.step hs h

/-- Settles O55: an effect starts the generator, advances it by one bit, runs it over the whole code, or leaves it. -/
theorem stepKeepsGeneratorInvariant : Obligations.StepKeepsGeneratorInvariant :=
  fun _ _ hs h => generatorInvariant_kept.step hs h

/-- Settles O56: an effect clears the flags, stores the correlations its flags speak of, or leaves flags and inputs. -/
theorem stepKeepsResultInvariant : Obligations.StepKeepsResultInvariant :=
  fun _ _ hs h => resultInvariant_kept.step hs h

/-- Settles O37: no sum has a magnitude above 130944, so the search finds nothing. -/
theorem highThresholdNeverDetects : Obligations.HighThresholdNeverDetects := by
  intro chips bits th _ hb hth
  exact detectionOf_of_not_found (search_found_eq_false fun o => (natAbs_scalarSum_le chips hb o).trans hth)

/-- Settles O50: the table of the state before is kept by every effect. -/
theorem tapTableNeverChanges : Obligations.TapTableNeverChanges :=
  fun s _ h => (tapTable_kept s.tapTable).step rfl h

/-- Settles O51: by the transition behind the command, clause by clause. -/
theorem inputsInvalidateResults : Obligations.InputsInvalidateResults := by
  intro i s t d h
  refine ⟨fun hr => ?_, fun hr => ?_⟩
  · have hb := blockCommand_of_exec h hr
    refine ⟨fun hi => ?_, fun hi => ?_⟩
    · have hcommand : ((∃ t1 t2, i = .settap t1 t2) ∨ (∃ k, i = .selsat k) ∨ i = .ginit ∨ i = .gstep ∨ i = .gen) ∨
          (i = .clrchip ∨ (∃ v, i = .ldchip v) ∨ ∃ v, i = .setthr v) := by simpa only [or_assoc] using hi
      rcases hcommand with hgenerator | hloading
      · exact result_cleared_of_generator_complete hb hgenerator
      · obtain ⟨u, hu⟩ := clearResults_of_complete hb hloading
        rw [hu]
        exact ⟨rfl, rfl⟩
    · obtain ⟨u, hu⟩ := clearResults_of_complete hb hi
      rw [hu]
      exact ⟨rfl, fun _ => rfl⟩
  · obtain ⟨c, hc⟩ := recordCause_of_fault (blockCommand_of_exec h hr)
    unfold resultEntry
    simp [hc]

/-- Settles O10: R40's table, field by field. -/
theorem resetValues : Obligations.ResetValues := by
  refine ⟨?_, rfl, rfl, rfl, rfl⟩
  rintro table s rfl
  exact ⟨rfl, rfl, rfl, rfl, rfl, fun _ => rfl, rfl, fun _ => rfl, rfl, rfl, rfl, rfl, rfl, fun _ => rfl, rfl, rfl, rfl,
    rfl⟩

/-- Every invariant holds of the state after reset, for a table that is a configuration (R40). -/
theorem resetWith_meets_invariants {table : TapTable} (h : tableLegal table = true) :
    LegalValues (State.resetWith table).block ∧ MemoryShape (State.resetWith table).block ∧
      GeneratorInvariant (State.resetWith table).block ∧ ResultInvariant (State.resetWith table).block :=
  have ⟨hn, hp⟩ := tableLegal_iff.1 h
  ⟨legalValues_resetWith hn hp, memoryShape_resetWith table, generatorInvariant_of_started rfl rfl rfl rfl,
    resultInvariant_of_cleared rfl rfl⟩

/-- Settles O52: the default table is one of the legal tables. -/
theorem resetMeetsInvariants : Obligations.ResetMeetsInvariants :=
  ⟨resetWith_meets_invariants (by decide), fun _ hn hp => resetWith_meets_invariants (tableLegal_iff.2 ⟨hn, hp⟩)⟩

end Sys2Proof.Machine

/-! The memories (20_memory.md): which commands write no state of the block (R50), and which write CHIP (R52). -/

namespace Sys2Proof.Machine

/-- A reading command, or NOP, leaves the block as it is or takes a fault (R50, R146, R148). -/
theorem same_or_recordCause_of_reader {i : Instr} {s t : Block} {a : Response}
    (hi : i = .nop ∨ (∃ r, i = .rdreg r) ∨ (∃ e j, i = .rdprn e j) ∨ (∃ j, i = .rdchip j) ∨ ∃ k, i = .rdsat k)
    (h : blockCommand i s = .ok (t, a)) : t = s ∨ ∃ c, t = recordCause c s := by
  rcases hi with rfl | ⟨r, rfl⟩ | ⟨e, j, rfl⟩ | ⟨j, rfl⟩ | ⟨k, rfl⟩
  · exact .inl (blockNop_cases h).1
  · rcases blockRdreg_cases h with ⟨_, -, ht, -⟩ | ⟨-, ht, -⟩
    exacts [.inl ht, .inr ⟨_, ht⟩]
  · rcases blockRdprn_cases h with ⟨-, ht, -⟩ | ⟨-, -, ht, -⟩ | ⟨-, -, _, -, ht, -⟩
    exacts [.inr ⟨_, ht⟩, .inr ⟨_, ht⟩, .inl ht]
  · rcases blockRdchip_cases h with ⟨-, ht, -⟩ | ⟨-, _, -, ht, -⟩
    exacts [.inr ⟨_, ht⟩, .inl ht]
  · rcases blockRdsat_cases h with ⟨-, ht, -⟩ | ⟨-, ht, -⟩
    exacts [.inl ht, .inr ⟨_, ht⟩]

/-- Leaving the block as it is, or taking a fault, writes ERR and CAUSE at most (R50, R153). -/
theorem eq_update_err_cause_of_same_or_recordCause {s t : Block} (h : t = s ∨ ∃ c, t = recordCause c s) :
    ∃ e c, t = { s with err := e, cause := c } := by
  rcases h with rfl | ⟨c, rfl⟩
  · exact ⟨t.err, t.cause, rfl⟩
  · exact ⟨_, _, recordCause_eq c s⟩

/-- Every command but LDCHIP and CLRCHIP keeps CHIPCNT and the whole of CHIP, whether it completes or faults (R52). -/
theorem chip_kept_of_command {i : Instr} {s t : Block} {a : Response} (hload : ∀ v, i ≠ .ldchip v)
    (hclear : i ≠ .clrchip) (h : blockCommand i s = .ok (t, a)) : t.chipcnt = s.chipcnt ∧ t.chip = s.chip := by
  have faulted (c : Cause) : (recordCause c s).chipcnt = s.chipcnt ∧ (recordCause c s).chip = s.chip :=
    ⟨recordCause_chipcnt c s, recordCause_chip c s⟩
  have reading (ht : t = s ∨ ∃ c, t = recordCause c s) : t.chipcnt = s.chipcnt ∧ t.chip = s.chip := by
    rcases ht with rfl | ⟨c, rfl⟩
    exacts [⟨rfl, rfl⟩, faulted c]
  cases i with
  | nop | rdreg | rdprn | rdchip | rdsat => exact reading (same_or_recordCause_of_reader (by simp) h)
  | settap t1 t2 =>
    rcases blockSettap_cases h with ⟨-, rfl, -⟩ | ⟨-, rfl, -⟩
    exacts [⟨rfl, rfl⟩, faulted _]
  | selsat k =>
    rcases blockSelsat_cases h with ⟨_, -, rfl, -⟩ | ⟨-, rfl, -⟩
    exacts [⟨rfl, rfl⟩, faulted _]
  | ginit =>
    rw [(blockGinit_cases h).1]
    exact ⟨rfl, rfl⟩
  | gstep =>
    rcases blockGstep_cases h with ⟨-, -, rfl, -⟩ | ⟨-, rfl, -⟩
    exacts [⟨rfl, rfl⟩, faulted _]
  | gen =>
    rw [(runGenerator_spec (blockGen_cases h).1).1]
    exact ⟨rfl, rfl⟩
  | clrchip => exact absurd rfl hclear
  | ldchip v => exact absurd rfl (hload v)
  | setthr v =>
    rw [(blockSetthr_cases h).1]
    exact ⟨rfl, rfl⟩
  | csum o =>
    rcases blockCsum_cases h with ⟨_, rfl, -⟩ | ⟨-, -, -, _, _, -, -, rfl, -⟩
    exacts [faulted _, ⟨rfl, rfl⟩]
  | corr =>
    rcases blockCorr_cases h with ⟨_, rfl, -⟩ | ⟨-, -, _, _, _, -, -, -, rfl, -⟩
    exacts [faulted _, ⟨rfl, rfl⟩]
  | scan =>
    rcases blockScan_cases h with ⟨-, rfl, -⟩ | ⟨-, hscan, -⟩
    · exact faulted _
    · rw [scanState_frame hscan]
      exact ⟨rfl, rfl⟩

/-- Settles O45: a reading command leaves the block or takes a fault, and a fault writes ERR and CAUSE only. -/
theorem readersFrame : Obligations.ReadersFrame := by
  intro i s t hi h
  rw [exec_eq_serve] at h
  obtain ⟨b, r, hb, rfl⟩ := serve_eq_next.1 h
  obtain ⟨e, c, rfl⟩ := eq_update_err_cause_of_same_or_recordCause (same_or_recordCause_of_reader hi hb)
  exact ⟨rfl, fun _ => rfl, fun _ => rfl, fun _ => rfl⟩

/-- Settles O49: command by command, with CLRCHIP leaving a CHIP that lists no element. -/
theorem onlyLdchipWritesChip : Obligations.OnlyLdchipWritesChip := by
  intro i s t h hload
  rw [exec_eq_serve] at h
  obtain ⟨b, r, hb, rfl⟩ := serve_eq_next.1 h
  refine ⟨fun hclear => ?_, ?_⟩
  · obtain ⟨hcnt, hchip⟩ := chip_kept_of_command hload hclear hb
    exact ⟨hcnt, fun a => congrArg (Memory.read · a) hchip⟩
  · rintro rfl
    obtain ⟨rfl, -⟩ := blockClrchip_cases hb
    exact ⟨rfl, fun _ => rfl⟩

end Sys2Proof.Machine

/-! The encoding (30_encoding.md sections 2 and 3): the rows of the opcode map, what the decoder answers, and the round
trip of decoder and encoder. -/

namespace Sys2Proof

/-! ### A row's test on the two parts of a word -/

/-- Masking keeps the fixed part of a word and zeroes the operands. -/
theorem append_and_highMask {m n : Nat} (x : BitVec m) (y : BitVec n) :
    (x ++ y) &&& (BitVec.allOnes m ++ 0#n) = x ++ 0#n := by
  rw [BitVec.and_append, BitVec.and_allOnes, BitVec.and_zero]

/-- A word whose fixed part is x is x and its own low bits. -/
theorem append_extractLsb'_of_and_highMask {m n : Nat} {w : BitVec (m + n)} {x : BitVec m}
    (h : w &&& (BitVec.allOnes m ++ 0#n) = x ++ 0#n) : x ++ w.extractLsb' 0 n = w := by
  have hw : w.extractLsb' n m ++ w.extractLsb' 0 n = w := BitVec.extractLsb'_append_extractLsb'
  rw [← hw, append_and_highMask] at h
  have hx := congrArg (BitVec.extractLsb' n m) h
  rw [BitVec.extractLsb'_append_eq_left, BitVec.extractLsb'_append_eq_left] at hx
  rw [← hx, hw]

/-- The upper of two operands, cut out of the word. -/
theorem extractLsb'_append_middle {l m n : Nat} (x : BitVec l) (y : BitVec m) (z : BitVec n) :
    (x ++ y ++ z).extractLsb' n m = y := by
  rw [BitVec.extractLsb'_append_eq_of_le (Nat.le_refl n), Nat.sub_self, BitVec.extractLsb'_append_eq_right]

/-- A word whose fixed part is x is x and its own low bits, cut out as two operands. -/
theorem append_extractLsb'_middle_of_and_highMask {l m n : Nat} {w : BitVec (l + (m + n))} {x : BitVec l}
    (h : w &&& (BitVec.allOnes l ++ 0#(m + n)) = x ++ 0#(m + n)) :
    x ++ w.extractLsb' n m ++ w.extractLsb' 0 n = w.cast (Nat.add_assoc l m n).symm := by
  rw [BitVec.append_assoc, BitVec.extractLsb'_append_extractLsb'_eq_extractLsb' (Nat.zero_add n).symm,
    append_extractLsb'_of_and_highMask h]

/-! ### The rows of the opcode map (R69) -/

/-- The opcode byte of a row's fixed bits. -/
def OpcodeRow.opcode (row : OpcodeRow) : BitVec 8 := row.pattern.extractLsb' 24 8

theorem OpcodeRow.selects_iff_and_mask {row : OpcodeRow} {w : Word} :
    row.selects w = true ↔ w &&& row.mask = row.pattern := beq_iff_eq

theorem map_opcode_opcodeRows : opcodeRows.map OpcodeRow.opcode = [0x00#8, 0x01#8, 0x10#8, 0x11#8, 0x12#8, 0x13#8,
    0x14#8, 0x15#8, 0x20#8, 0x21#8, 0x22#8, 0x23#8, 0x24#8, 0x25#8, 0x30#8, 0x31#8] := by decide

/-- A word a row selects carries the row's opcode: every mask has ones in bits 31:24. -/
theorem opcode_of_selects {row : OpcodeRow} (hrow : row ∈ opcodeRows) {w : Word} (h : row.selects w = true) :
    w.extractLsb' 24 8 = row.opcode := by
  have hmask : row.mask.extractLsb' 24 8 = BitVec.allOnes 8 :=
    (by decide : ∀ row ∈ opcodeRows, row.mask.extractLsb' 24 8 = BitVec.allOnes 8) row hrow
  rw [OpcodeRow.opcode, ← OpcodeRow.selects_iff_and_mask.1 h, BitVec.extractLsb'_and, hmask, BitVec.and_allOnes]

/-- No two rows select the same word, because no two rows have the same opcode. -/
theorem row_index_unique {j k : Nat} {row row' : OpcodeRow} {w : Word} (hj : opcodeRows[j]? = some row)
    (hk : opcodeRows[k]? = some row') (h : row.selects w = true) (h' : row'.selects w = true) : k = j := by
  have hopcode : row'.opcode = row.opcode := by
    rw [← opcode_of_selects (List.mem_of_getElem? hj) h, ← opcode_of_selects (List.mem_of_getElem? hk) h']
  have hnodup : (opcodeRows.map OpcodeRow.opcode).Nodup := by rw [map_opcode_opcodeRows]; decide
  refine (List.getElem?_inj ?_ hnodup).1 ?_
  · rw [List.length_map]
    exact (List.getElem?_eq_some_iff.1 hk).1
  · rw [List.getElem?_map, List.getElem?_map, hj, hk, Option.map_some, Option.map_some, hopcode]

/-! ### What the decoder answers -/

/-- A word that selects a row decodes to the row's command (R70). -/
theorem decode_of_selects {row : OpcodeRow} (hrow : row ∈ opcodeRows) {w : Word} (h : row.selects w = true) :
    decode w = .ok (row.build w) := by
  obtain ⟨row', hfind⟩ := Option.isSome_iff_exists.1 
    (List.find?_isSome (p := fun row : OpcodeRow => row.selects w) |>.2 ⟨row, hrow, h⟩)
  obtain ⟨j, hj⟩ := List.getElem?_of_mem hrow
  obtain ⟨k, hk⟩ := List.getElem?_of_mem (List.mem_of_find?_eq_some hfind)
  obtain rfl := row_index_unique hj hk h (List.find?_some (p := fun row : OpcodeRow => row.selects w) hfind)
  obtain rfl : row = row' := Option.some.inj (hj.symm.trans hk)
  simp only [decode, hfind]

/-- A word that selects no row is rejected, by the name of R72's case. -/
theorem decode_of_not_selects {w : Word} (h : ∀ row ∈ opcodeRows, ¬ row.selects w = true) :
    decode w = .error (if w.extractLsb' 24 8 ∈ opcodeRows.map OpcodeRow.opcode then .reservedBit
      else .unknownOpcode) := by
  have hany : (opcodeRows.any fun row => row.pattern.extractLsb' 24 8 == w.extractLsb' 24 8) = true ↔
      w.extractLsb' 24 8 ∈ opcodeRows.map OpcodeRow.opcode := by
    simp only [List.any_eq_true, beq_iff_eq, List.mem_map, OpcodeRow.opcode]
  simp only [decode, List.find?_eq_none.2 h, hany]
  split <;> rfl

theorem selects_of_decode {w : Word} {i : Instr} (h : decode w = .ok i) :
    ∃ row ∈ opcodeRows, row.selects w = true ∧ row.build w = i := by
  by_cases hex : ∃ row ∈ opcodeRows, row.selects w = true
  · obtain ⟨row, hrow, hsel⟩ := hex
    rw [decode_of_selects hrow hsel] at h
    exact ⟨row, hrow, hsel, Except.ok.inj h⟩
  · rw [decode_of_not_selects (by simpa using hex)] at h
    cases h

/-! ### The round trip -/

/-- A command decodes from its word if the row at some place of the map selects the word and cuts the command out. -/
theorem decode_encode_of_row {i : Instr} (k : Nat) {row : OpcodeRow} (hk : opcodeRows[k]? = some row)
    (hsel : encode i &&& row.mask = row.pattern) (hbuild : row.build (encode i) = i) : decode (encode i) = .ok i := by
  rw [decode_of_selects (List.mem_of_getElem? hk) (OpcodeRow.selects_iff_and_mask.2 hsel), hbuild]

theorem decode_encode (i : Instr) : decode (encode i) = .ok i := by
  cases i with
  | nop | ginit | gstep | gen | clrchip | corr | scan => rfl
  | rdreg r =>
    exact decode_encode_of_row 1 rfl (append_and_highMask (0x01#8 ++ 0#20) r)
      (congrArg Instr.rdreg BitVec.extractLsb'_append_eq_right)
  | settap t1 t2 =>
    have hword : encode (.settap t1 t2) = (0x10#8 ++ 0#16) ++ (t1 ++ t2) := BitVec.append_assoc
    have hsel := append_and_highMask (0x10#8 ++ 0#16) (t1 ++ t2)
    rw [← hword] at hsel
    exact decode_encode_of_row 2 rfl hsel (congrArg₂ Instr.settap
      (extractLsb'_append_middle (0x10#8 ++ 0#16) t1 t2) BitVec.extractLsb'_append_eq_right)
  | selsat k =>
    exact decode_encode_of_row 3 rfl (append_and_highMask (0x11#8 ++ 0#19) k)
      (congrArg Instr.selsat BitVec.extractLsb'_append_eq_right)
  | rdprn enc j =>
    have hword : encode (.rdprn enc j) = (0x15#8 ++ 0#12) ++ (enc ++ j) := BitVec.append_assoc
    have hsel := append_and_highMask (0x15#8 ++ 0#12) (enc ++ j)
    rw [← hword] at hsel
    exact decode_encode_of_row 7 rfl hsel (congrArg₂ Instr.rdprn
      (extractLsb'_append_middle (0x15#8 ++ 0#12) enc j) BitVec.extractLsb'_append_eq_right)
  | ldchip v =>
    exact decode_encode_of_row 9 rfl (append_and_highMask (0x21#8 ++ 0#16) v)
      (congrArg Instr.ldchip BitVec.extractLsb'_append_eq_right)
  | rdchip j =>
    exact decode_encode_of_row 10 rfl (append_and_highMask (0x22#8 ++ 0#14) j)
      (congrArg Instr.rdchip BitVec.extractLsb'_append_eq_right)
  | setthr v =>
    exact decode_encode_of_row 11 rfl (append_and_highMask (0x23#8 ++ 0#7) v)
      (congrArg Instr.setthr BitVec.extractLsb'_append_eq_right)
  | csum o =>
    exact decode_encode_of_row 12 rfl (append_and_highMask (0x24#8 ++ 0#14) o)
      (congrArg Instr.csum BitVec.extractLsb'_append_eq_right)
  | rdsat k =>
    exact decode_encode_of_row 15 rfl (append_and_highMask (0x31#8 ++ 0#19) k)
      (congrArg Instr.rdsat BitVec.extractLsb'_append_eq_right)

/-- The command a row cuts out of a word it selects has that word: the row's fixed bits are the command's. -/
theorem encode_build {row : OpcodeRow} (hrow : row ∈ opcodeRows) {w : Word} (h : w &&& row.mask = row.pattern) :
    encode (row.build w) = w := by
  have fixed {p : Word} (h : w &&& BitVec.allOnes 32 = p) : p = w := by rw [← h, BitVec.and_allOnes]
  simp only [opcodeRows, generatorRows, correlatorRows, List.cons_append, List.nil_append, List.mem_cons,
    List.not_mem_nil, or_false] at hrow
  rcases hrow with rfl | rfl | rfl | rfl | rfl | rfl | rfl | rfl | rfl | rfl | rfl | rfl | rfl | rfl | rfl | rfl
  · exact fixed h
  · exact append_extractLsb'_of_and_highMask (x := 0x01#8 ++ 0#20) h
  · exact append_extractLsb'_middle_of_and_highMask (m := 4) (n := 4) (x := 0x10#8 ++ 0#16) h
  · exact append_extractLsb'_of_and_highMask (x := 0x11#8 ++ 0#19) h
  · exact fixed h
  · exact fixed h
  · exact fixed h
  · exact append_extractLsb'_middle_of_and_highMask (m := 2) (n := 10) (x := 0x15#8 ++ 0#12) h
  · exact fixed h
  · exact append_extractLsb'_of_and_highMask (x := 0x21#8 ++ 0#16) h
  · exact append_extractLsb'_of_and_highMask (x := 0x22#8 ++ 0#14) h
  · exact append_extractLsb'_of_and_highMask (x := 0x23#8 ++ 0#7) h
  · exact append_extractLsb'_of_and_highMask (x := 0x24#8 ++ 0#14) h
  · exact fixed h
  · exact fixed h
  · exact append_extractLsb'_of_and_highMask (x := 0x31#8 ++ 0#19) h

/-- Decoding inverts encoding in both directions (R68, R70). -/
theorem decode_eq_ok_iff {w : Word} {i : Instr} : decode w = .ok i ↔ encode i = w := by
  constructor
  · intro h
    obtain ⟨row, hrow, hsel, rfl⟩ := selects_of_decode h
    exact encode_build hrow (OpcodeRow.selects_iff_and_mask.1 hsel)
  · rintro rfl
    exact decode_encode i

/-- A word of no command is rejected, by its opcode byte (R72). -/
theorem decode_of_not_encode {w : Word} (h : ∀ i, encode i ≠ w) :
    decode w = .error (if w.extractLsb' 24 8 ∈ opcodeRows.map OpcodeRow.opcode then .reservedBit
      else .unknownOpcode) :=
  decode_of_not_selects fun _ hrow hsel => h _ (decode_eq_ok_iff.1 (decode_of_selects hrow hsel))

/-- The word of a command carries one of the sixteen opcodes. -/
theorem opcode_mem_of_encode {w : Word} {i : Instr} (h : encode i = w) :
    w.extractLsb' 24 8 ∈ opcodeRows.map OpcodeRow.opcode := by
  obtain ⟨row, hrow, hsel, -⟩ := selects_of_decode (decode_eq_ok_iff.2 h)
  rw [opcode_of_selects hrow hsel]
  exact List.mem_map_of_mem hrow

theorem card_bitVec (n : Nat) : Fintype.card (BitVec n) = 2 ^ n := by
  rw [← FinEnum.card_eq_fintypeCard, FinEnum.card_bitVec]

/-- The commands as the disjoint union of their sixteen forms, each form the product of its operands' fields. -/
def Instr.formsEquiv := proxy_equiv% Instr

/-- The commands with every operand at every value of its field, counted form by form. -/
theorem card_instr : Nat.card Instr = 137815 := by
  rw [← Nat.card_congr Instr.formsEquiv]
  simp [card_bitVec]

/-! ### The obligations on the decoder -/

/-- Settles O1: each command's row selects its word and cuts the operands out of their fields. -/
theorem decodeEncodeRoundTrip : Obligations.DecodeEncodeRoundTrip := decode_encode

/-- Settles O2: a word that decodes selects a row, whose fixed bits and operand fields are all of its bits. -/
theorem encodeDecodeRoundTrip : Obligations.EncodeDecodeRoundTrip := fun _ _ => decode_eq_ok_iff.1

/-- Settles O3: two rows that select one word have its opcode in common, so they are the same row. -/
theorem decoderFollowsTheOneSelectedRow : Obligations.DecoderFollowsTheOneSelectedRow := by
  intro w
  refine ⟨fun j row hj h => ⟨?_, fun k row' hk h' => ?_⟩, fun h => ?_⟩
  · exact decode_of_selects (List.mem_of_getElem? hj) (OpcodeRow.selects_iff_and_mask.2 h)
  · exact row_index_unique hj hk (OpcodeRow.selects_iff_and_mask.2 h) (OpcodeRow.selects_iff_and_mask.2 h')
  · exact ⟨_, decode_of_not_selects fun row hrow hsel => h row hrow (OpcodeRow.selects_iff_and_mask.1 hsel)⟩

/-- Settles O4: a word is a command's and decodes, or is rejected by the name its opcode byte decides. -/
theorem rejectedWordsByName : Obligations.RejectedWordsByName := by
  intro w
  rw [← map_opcode_opcodeRows]
  by_cases hex : ∃ i, encode i = w
  · obtain ⟨i, hi⟩ := hex
    have hmem := opcode_mem_of_encode hi
    rw [decode_eq_ok_iff.2 hi]
    exact ⟨⟨nofun, fun h => absurd hmem h⟩, nofun, fun h => absurd hi (h.2 i)⟩
  · have hne : ∀ i, encode i ≠ w := not_exists.1 hex
    rw [decode_of_not_encode hne]
    by_cases hmem : w.extractLsb' 24 8 ∈ opcodeRows.map OpcodeRow.opcode <;> simp [hmem, hne]

/-- Settles O5: the words that decode are the commands' words, one word per command. -/
theorem commandWordCount : Obligations.CommandWordCount := by
  have hset : {w : Word | ∃ i, decode w = .ok i} = Set.range encode := by
    ext w
    simp only [Set.mem_ofPred_eq, decode_eq_ok_iff, Set.mem_range]
  have hinj : Function.Injective encode := fun i j h => by
    rw [← decode_eq_ok_iff, decode_encode] at h
    exact (Except.ok.inj h).symm
  unfold Obligations.CommandWordCount
  rw [hset, ← Nat.card_coe_set_eq, Nat.card_range_of_injective hinj, card_instr]

end Sys2Proof

/-! The port (30_encoding.md section 1): what a step does with a word that decodes and with one that does not, the
response to each command, and that the port answers every command. -/

namespace Sys2Proof.Machine

/-! ### One step on one word -/

/-- A word of a command runs it (R64, R70). -/
theorem present_of_decode_ok {w : Word} {i : Instr} (h : decode w = .ok i) (s : State) : present w s = exec i s := by
  simp only [present, h]

/-- A word of no command takes E_ILLEGAL (R72). -/
theorem present_of_decode_error {w : Word} {e : DecodeError} (h : decode w = .error e) (s : State) :
    present w s = .next (afterFault 1 s) := by
  simp only [present, h]
  exact serve_takeFault .illegal s

/-! ### The response to a command (R65, R153) -/

/-- A command whose response has fault = 1 has recorded a cause, as recordCause_of_fault says, and answers the code of
that same cause (R153). -/
theorem recordCause_and_code_of_fault {i : Instr} {s t : Block} {d : Word}
    (h : blockCommand i s = .ok (t, ⟨true, d⟩)) :
    ∃ c, t = recordCause c s ∧ d = c.code.setWidth 32 := by
  cases i with
  | nop => cases (blockNop_cases h).2
  | rdreg r =>
    rcases blockRdreg_cases h with ⟨_, -, -, ha⟩ | ⟨-, ht, ha⟩
    exacts [(nomatch ha), ⟨_, ht, congrArg Response.rdata ha⟩]
  | settap t1 t2 =>
    rcases blockSettap_cases h with ⟨-, -, ha⟩ | ⟨-, ht, ha⟩
    exacts [(nomatch ha), ⟨_, ht, congrArg Response.rdata ha⟩]
  | selsat k =>
    rcases blockSelsat_cases h with ⟨_, -, -, ha⟩ | ⟨-, ht, ha⟩
    exacts [(nomatch ha), ⟨_, ht, congrArg Response.rdata ha⟩]
  | ginit => cases (blockGinit_cases h).2
  | gstep =>
    rcases blockGstep_cases h with ⟨-, -, -, ha⟩ | ⟨-, ht, ha⟩
    exacts [(nomatch ha), ⟨_, ht, congrArg Response.rdata ha⟩]
  | gen => cases (blockGen_cases h).2
  | rdprn enc j =>
    rcases blockRdprn_cases h with ⟨-, ht, ha⟩ | ⟨-, -, ht, ha⟩ | ⟨-, -, _, -, -, ha⟩
    exacts [⟨_, ht, congrArg Response.rdata ha⟩, ⟨_, ht, congrArg Response.rdata ha⟩, nomatch ha]
  | clrchip => cases (blockClrchip_cases h).2
  | ldchip v =>
    rcases blockLdchip_cases h with ⟨-, -, ha⟩ | ⟨-, ht, ha⟩
    exacts [(nomatch ha), ⟨_, ht, congrArg Response.rdata ha⟩]
  | rdchip j =>
    rcases blockRdchip_cases h with ⟨-, ht, ha⟩ | ⟨-, _, -, -, ha⟩
    exacts [⟨_, ht, congrArg Response.rdata ha⟩, nomatch ha]
  | setthr v => cases (blockSetthr_cases h).2
  | csum o =>
    rcases blockCsum_cases h with ⟨_, ht, ha⟩ | ⟨-, -, -, _, _, -, -, -, ha⟩
    exacts [⟨_, ht, congrArg Response.rdata ha⟩, nomatch ha]
  | corr =>
    rcases blockCorr_cases h with ⟨_, ht, ha⟩ | ⟨-, -, _, _, _, -, -, -, -, ha⟩
    exacts [⟨_, ht, congrArg Response.rdata ha⟩, nomatch ha]
  | scan =>
    rcases blockScan_cases h with ⟨-, ht, ha⟩ | ⟨-, -, ha⟩
    exacts [⟨_, ht, congrArg Response.rdata ha⟩, nomatch ha]
  | rdsat k =>
    rcases blockRdsat_cases h with ⟨-, -, ha⟩ | ⟨-, ht, ha⟩
    exacts [(nomatch ha), ⟨_, ht, congrArg Response.rdata ha⟩]

/-- The port answers fault = 1 with the code of a cause, for a command and for a word that is none. -/
theorem rdata_of_port_fault {w : Word} {s t : Block} {d : Word} (h : port w s = .ok (t, ⟨true, d⟩)) :
    ∃ c : Cause, d = c.code.setWidth 32 := by
  unfold port at h
  split at h
  · obtain ⟨c, -, hd⟩ := recordCause_and_code_of_fault h
    exact ⟨c, hd⟩
  · exact ⟨.illegal, congrArg Response.rdata (takeFault_eq_ok.1 h).2⟩

theorem code_bounds (c : Cause) : 1 ≤ c.code.toNat ∧ c.code.toNat ≤ 9 :=
  ⟨Nat.pos_of_ne_zero (code_ne_zero c), code_le c⟩

/-! ### Operands that name nothing (R76, R154) -/

theorem exec_of_takeFault {i : Instr} {s : State} {c : Cause} (h : blockCommand i s.block = takeFault c s.block) :
    exec i s = .next (afterFault c.code s) := by
  rw [exec_eq_serve, ← serve_takeFault]
  simp only [serve, h]

theorem readRegister_eq_none {r : BitVec 4} (h : isRegisterNumber r = false) (s : Block) : readRegister r s = none := by
  have hr : 10 < r.toNat := by simpa [isRegisterNumber] using h
  unfold readRegister
  split
  case h_12 => rfl
  all_goals omega

theorem eq_1023_of_not_element {i : BitVec 10} (h : isElementIndex i = false) : i.toNat = 1023 := by
  have : 1023 ≤ i.toNat := by simpa [isElementIndex, Nat.lt_iff_add_one_le] using h
  omega

/-- An ill-formed command takes a fault in every state: an index of 1023 is at or above every counter, and the other
checks read no state. -/
theorem blockCommand_of_ill_formed {i : Instr} (h : i.wellFormed = false) (s : Block) :
    ∃ c, blockCommand i s = takeFault c s := by
  cases i with
  | rdreg r =>
    refine ⟨.register, ?_⟩
    simp only [blockCommand, blockRdreg, readRegister_eq_none h]
  | settap t1 t2 => exact ⟨.tap, if_neg (Bool.not_eq_true _ ▸ h)⟩
  | rdprn enc j =>
    by_cases henc : enc.toNat = 3
    · exact ⟨.illegal, if_pos henc⟩
    · have hj : isElementIndex j = false := by
        have : isPrnEncoding enc = true := by simp only [isPrnEncoding, decide_eq_true_eq]; omega
        simpa [Instr.wellFormed, this] using h
      have hle : s.gcnt.toNat ≤ j.toNat := by rw [eq_1023_of_not_element hj]; omega
      exact ⟨.index, (if_neg henc).trans (if_pos hle)⟩
  | rdchip j =>
    have hle : s.chipcnt.toNat ≤ j.toNat := by rw [eq_1023_of_not_element h]; omega
    exact ⟨.index, if_pos hle⟩
  | csum o => exact ⟨.index, if_pos (eq_1023_of_not_element h)⟩
  | nop | selsat | ginit | gstep | gen | clrchip | ldchip | setthr | corr | scan | rdsat => cases h

/-! ### The port answers every word (R54, R63, R66) -/

/-- In a well-shaped state with CHIPCNT = 1023 the captured sequence is whole (R26). -/
theorem chip_sequence_of_full {s : Block} (hm : MemoryShape s) (h : chipFull s = true) :
    ∃ chips, Memory.sequence s.chip 1023 = some chips :=
  Memory.sequence_of_elements hm.chipCanonical (by rw [← chipFull_iff.1 h]; exact hm.chipElements)

/-- In a well-shaped state with GCNT = 1023 the code is whole (R23). -/
theorem prn_sequence_of_full {s : Block} (hm : MemoryShape s) (h : prnFull s = true) :
    ∃ bits, s.prn.sequence 1023 = some bits :=
  Memory.sequence_of_elements hm.prnCanonical (by rw [← prnFull_iff.1 h]; exact hm.prnElements)

/-- With legal taps, a legal table and well-shaped memories no command stops the model (R54). -/
theorem blockCommand_answers {s : Block} (hl : LegalValues s) (hm : MemoryShape s) (i : Instr) :
    ∃ t r, blockCommand i s = .ok (t, r) := by
  have htaps : tapsLegal s = true := tapsLegal_iff.2 hl.taps
  cases i with
  | nop | ginit | clrchip | setthr => exact ⟨_, _, rfl⟩
  | rdreg | settap | selsat | ldchip | rdsat =>
    simp only [blockCommand, blockRdreg, blockSettap, blockSelsat, blockLdchip, blockRdsat]
    split <;> exact ⟨_, _, rfl⟩
  | gstep =>
    simp only [blockCommand, blockGstep]
    rw [if_pos htaps]
    split <;> exact ⟨_, _, rfl⟩
  | gen =>
    obtain ⟨t, ht⟩ := blockGen_of_tapsLegal htaps
    exact ⟨_, _, ht⟩
  | rdprn enc j =>
    simp only [blockCommand, blockRdprn]
    split_ifs with henc hj
    · exact ⟨_, _, rfl⟩
    · exact ⟨_, _, rfl⟩
    · obtain ⟨b, hb⟩ := (hm.prnElements _).2 (Nat.lt_of_not_le hj)
      rw [hb]
      exact ⟨_, _, rfl⟩
  | rdchip j =>
    simp only [blockCommand, blockRdchip]
    split_ifs with hj
    · exact ⟨_, _, rfl⟩
    · obtain ⟨v, hv⟩ := (hm.chipElements _).2 (Nat.lt_of_not_le hj)
      rw [hv]
      exact ⟨_, _, rfl⟩
  | csum o =>
    simp only [blockCommand, blockCsum]
    split_ifs with ho hchip hprn
    · exact ⟨_, _, rfl⟩
    · exact ⟨_, _, rfl⟩
    · exact ⟨_, _, rfl⟩
    · obtain ⟨chips, hc⟩ := chip_sequence_of_full hm (by simpa using hchip)
      obtain ⟨bits, hb⟩ := prn_sequence_of_full hm (by simpa using hprn)
      exact ⟨_, _, finish_eq_ok.2 ⟨sumAt_eq_ok.2 ⟨chips, bits, hc, hb, rfl⟩, rfl⟩⟩
  | corr =>
    simp only [blockCommand, blockCorr]
    split_ifs with hchip hprn
    · exact ⟨_, _, rfl⟩
    · exact ⟨_, _, rfl⟩
    · obtain ⟨chips, hc⟩ := chip_sequence_of_full hm (by simpa using hchip)
      obtain ⟨bits, hb⟩ := prn_sequence_of_full hm (by simpa using hprn)
      exact ⟨_, _, finish_eq_ok.2 ⟨correlateState_eq_ok.2 ⟨chips, bits, hc, hb, rfl⟩, rfl⟩⟩
  | scan =>
    by_cases hchip : chipFull s = true
    · obtain ⟨chips, hc⟩ := chip_sequence_of_full hm hchip
      obtain ⟨t, -, ht⟩ := blockScan_of_sequence hchip (tableLegal_of_legalValues hl) hc
      exact ⟨_, _, ht⟩
    · exact ⟨_, _, if_pos (by simpa using hchip)⟩

/-- The port answers every word, of a command or not. -/
theorem port_answers {s : Block} (hl : LegalValues s) (hm : MemoryShape s) (w : Word) :
    ∃ t r, port w s = .ok (t, r) := by
  unfold port
  split
  · exact blockCommand_answers hl hm _
  · exact ⟨_, _, rfl⟩

/-! ### The obligations on the port -/

/-- Settles O6: each worked word is the word of the command R77 gives; five of the illegal words are no command's, and
0x15000C00 is RDPRN's with the reserved encoding 3. -/
theorem workedEncodings : Obligations.WorkedEncodings := by
  have hdecode {w : Word} {i : Instr} (h : encode i = w) : decode w = .ok i := decode_eq_ok_iff.2 h
  refine ⟨hdecode rfl, hdecode rfl, hdecode rfl, hdecode rfl, hdecode rfl, hdecode rfl, hdecode rfl, hdecode rfl,
    hdecode rfl, hdecode rfl, hdecode rfl, hdecode rfl, hdecode rfl, hdecode rfl, ?_⟩
  have unknown {w : Word} (h : decode w = .error .unknownOpcode) := present_of_decode_error h
  have reserved {w : Word} (h : decode w = .error .reservedBit) := present_of_decode_error h
  have hrdprn (s : State) : present 0x15000C00#32 s = .next (afterFault 1 s) :=
    (present_of_decode_ok (i := .rdprn 3 0) (hdecode rfl) s).trans (exec_of_takeFault (c := .illegal) rfl)
  simp only [List.forall_mem_cons, List.not_mem_nil, false_imp_iff, implies_true, and_true]
  exact ⟨unknown rfl, reserved rfl, hrdprn, reserved rfl, reserved rfl, unknown rfl⟩

/-- Settles O7: presenting the word is running the command it decodes to. -/
theorem stepRunsDecodedCommand : Obligations.StepRunsDecodedCommand := by
  intro s w rest i hs hi
  rw [step_command hs, ← present_eq_serve, present_of_decode_ok hi]

/-- Settles O8: the step is E_ILLEGAL taken on the state with the word taken. -/
theorem stepFaultsOnIllegalWord : Obligations.StepFaultsOnIllegalWord := by
  intro s w rest e hs he
  rw [step_command hs, ← present_eq_serve, present_of_decode_error he]
  rfl

/-- Settles O12: the response is the one the port's transition answers. -/
theorem oneResponsePerCommand : Obligations.OneResponsePerCommand := by
  intro s t w rest hs h
  rw [step_command hs] at h
  obtain ⟨b, ⟨fault, d⟩, hport, rfl⟩ := serve_eq_next.1 h
  refine ⟨⟨fault, d⟩, rfl, rfl, fun hfault => ?_⟩
  obtain rfl : fault = true := hfault
  obtain ⟨c, rfl⟩ := rdata_of_port_fault hport
  rw [BitVec.toNat_setWidth_of_le (by decide)]
  exact code_bounds c

/-- Settles O16: the failed check makes the command take its fault. -/
theorem illFormedCommandFaults : Obligations.IllFormedCommandFaults := by
  intro i s h
  obtain ⟨c, hc⟩ := blockCommand_of_ill_formed h s.block
  obtain ⟨hpos, hle⟩ := code_bounds c
  exact ⟨c.code, hpos, hle, exec_of_takeFault hc⟩

/-- Settles O60: the port's transition reads the block and the word alone, and it always answers. -/
theorem portIsATotalFunction : Obligations.PortIsATotalFunction := by
  intro w b hl hm
  obtain ⟨b', r, hport⟩ := port_answers hl hm w
  refine ⟨b', r, hport, fun rest given => ?_⟩
  rw [step_command rfl]
  exact serve_of_ok hport

end Sys2Proof.Machine

/-! The pseudo-instructions LOAD and CORRTAP (30_encoding.md section 6, R87). -/

namespace Sys2Proof.Machine

/-! ### Commands run one after the other (R56) -/

theorem execAll_cons_of_ok {i : Instr} {s : State} {b : Block} {r : Response} (h : blockCommand i s.block = .ok (b, r))
    (rest : List Instr) : execAll (i :: rest) s = execAll rest (reply s b r) := by
  have hexec : exec i s = .next (reply s b r) := by rw [exec_eq_serve, serve_of_ok h]
  simp only [execAll, hexec]

/-! ### LOAD -/

/-- Writing the element after a whole sequence extends it by that element. -/
theorem Memory.sequence_write {α : Type} {m : Memory α} {n : Nat} {l : List α} (h : m.sequence n = some l) (v : α) :
    (m.write n v).sequence (n + 1) = some (l ++ [v]) := by
  obtain ⟨hkeys, rfl⟩ := Memory.sequence_eq_some.1 h
  have hlt : ∀ x ∈ m.map Prod.fst, x < n := fun x hx => by rwa [hkeys, List.mem_range] at hx
  rw [Memory.sequence_eq_some, Memory.write_append m n v hlt, List.map_append, List.map_append, hkeys, List.range_succ]
  exact ⟨rfl, rfl⟩

/-- LDCHIP into a captured sequence that is not full appends its sample to it (R111). -/
theorem ldchip_appends {s : Block} {held : List Sample} (hs : Memory.sequence s.chip s.chipcnt.toNat = some held)
    (hroom : s.chipcnt.toNat ≠ 1023) (v : Sample) :
    ∃ b, blockCommand (.ldchip v) s = .ok (b, ⟨false, 0⟩) ∧ b.chipcnt.toNat = s.chipcnt.toNat + 1 ∧
      Memory.sequence b.chip b.chipcnt.toNat = some (held ++ [v]) := by
  have hcnt := toNat_add_one hroom
  refine ⟨_, if_neg (by rwa [chipFull_iff]), hcnt, ?_⟩
  rw [clearResults_chipcnt, hcnt]
  exact Memory.sequence_write hs v

/-- LDCHIP of each of a list of samples, while they fit, appends them to the captured sequence (R111). -/
theorem execAll_ldchip (chips : List Sample) (s : State) (held : List Sample)
    (hs : Memory.sequence s.chip s.chipcnt.toNat = some held) (hfit : s.chipcnt.toNat + chips.length ≤ 1023) :
    ∃ t, execAll (chips.map .ldchip) s = .next t ∧ t.chipcnt.toNat = s.chipcnt.toNat + chips.length ∧
      Memory.sequence t.chip t.chipcnt.toNat = some (held ++ chips) := by
  induction chips generalizing s held with
  | nil => exact ⟨s, rfl, rfl, by rw [List.append_nil, hs]⟩
  | cons v chips ih =>
    rw [List.length_cons] at hfit
    obtain ⟨b, hb, hcnt, hchip⟩ := ldchip_appends hs (by omega) v
    obtain ⟨t, ht, htcnt, htchip⟩ := ih (reply s b ⟨false, 0⟩) (held ++ [v]) hchip (by rw [reply_block]; omega)
    refine ⟨t, ?_, ?_, by rw [htchip, List.append_assoc]; rfl⟩
    · rw [List.map_cons, execAll_cons_of_ok hb, ht]
    · rw [htcnt, reply_block, hcnt, List.length_cons]
      omega

/-- Settles O59: CLRCHIP leaves the empty sequence, and each LDCHIP appends its sample. -/
theorem loadFillsChip : Obligations.LoadFillsChip := by
  intro s chips hlen
  obtain ⟨t, ht, hcnt, hchip⟩ := execAll_ldchip chips
    (reply s (clearResults { s.block with chipcnt := 0, chip := [] }) ⟨false, 0⟩) [] rfl (by simp [hlen])
  have hfull : t.chipcnt.toNat = 1023 := by simpa [hlen] using hcnt
  rw [hfull] at hchip
  refine ⟨t, ?_, toNat_1023.1 hfull, chipsAre_of_sequence hchip⟩
  rw [← ht]
  exact execAll_cons_of_ok (i := .clrchip) rfl _

/-! ### CORRTAP -/

/-- GEN and then CORR correlate a whole captured sequence with the code of the present taps (R99, R122). -/
theorem execAll_gen_corr {s : State} {chips : List Sample} (htaps : tapsLegal s.block = true)
    (hfull : chipFull s.block = true) (hseq : Memory.sequence s.chip 1023 = some chips) :
    ∃ t, execAll [.gen, .corr] s = .next t ∧ t.rdone = true ∧
      t.result = correlate chips (generate s.tap1 s.tap2) s.thresh.toNat ∧
      Memory.sequence t.chip 1023 = some chips := by
  obtain ⟨u, hgen⟩ := blockGen_of_tapsLegal htaps
  obtain ⟨hu, -, -, hprn⟩ := runGenerator_spec (blockGen_cases hgen).1
  obtain ⟨hchip, hchipcnt, hthresh, hgcnt⟩ :
      u.chip = s.chip ∧ u.chipcnt = s.chipcnt ∧ u.thresh = s.thresh ∧ u.gcnt = 1023#10 := by
    rw [hu]
    exact ⟨rfl, rfl, rfl, rfl⟩
  rw [← hchip] at hseq
  have hcorr := blockCorr_of_sequences (by rwa [chipFull_iff, hchipcnt, ← chipFull_iff])
    (prnFull_iff.2 (by rw [hgcnt]; rfl)) hseq hprn
  rw [execAll_cons_of_ok (i := .gen) hgen, execAll_cons_of_ok (i := .corr) (s := reply s u _) hcorr]
  refine ⟨_, rfl, rfl, ?_, hseq⟩
  rw [← hthresh]
  rfl

/-- Settles O58: SETTAP loads the taps and keeps CHIP and THRESH, and GEN and CORR do the rest. -/
theorem corrtapIsCorrelateOfGenerate : Obligations.CorrtapIsCorrelateOfGenerate := by
  intro t1 t2 s chips h1 h2 hshape hcnt hchips
  have hsettap : blockCommand (.settap t1 t2) s.block = .ok (loadTaps ⟨t1, t2⟩ s.block, ⟨false, 0⟩) :=
    if_pos (pairLegal_iff.2 ⟨h1, h2⟩)
  obtain ⟨t, ht, hrdone, hresult, hchip⟩ :=
    execAll_gen_corr (s := reply s (loadTaps ⟨t1, t2⟩ s.block) ⟨false, 0⟩) (tapsLegal_iff.2 ⟨h1, h2⟩)
      (chipFull_iff.2 (toNat_1023.2 hcnt)) (sequence_of_chipsAre hshape (toNat_1023.2 hcnt) hchips)
  refine ⟨t, ?_, hrdone, hresult, chipsAre_of_sequence hchip⟩
  rw [expand, execAll_cons_of_ok hsettap, ht]

end Sys2Proof.Machine

/-! The generator (40_prn_generator.md): what each of its commands does, the registers as windows on the stream of bits
they emit, and the code's period, symmetry and balance. -/

namespace Sys2Proof.Machine

/-! ### Answers of the generator commands -/

theorem exec_of_ok {i : Instr} {s : State} {b : Block} {r : Response} (h : blockCommand i s.block = .ok (b, r)) :
    exec i s = .next (reply s b r) := by
  rw [exec_eq_serve, serve_of_ok h]

/-- A bit zero-extended to a word is the bit as a number (R11). -/
theorem bitWord_eq_ofNat (b : Bool) : bitWord b = BitVec.ofNat 32 (bitNat b) := by cases b <;> rfl

/-- The mask view is 255 times the bit (R83). -/
theorem prnView_mask (b : Bool) : prnView 1 b = BitVec.ofNat 32 (255 * bitNat b) := by cases b <;> rfl

/-- The bipolar view is +1 or −1 (R83). -/
theorem prnView_bipolar (b : Bool) : prnView 2 b = BitVec.ofInt 32 (2 * bitNat b - 1) := by cases b <;> rfl

theorem toNat_ne_three {enc : BitVec 2} (h : enc ≠ 3) : enc.toNat ≠ 3 :=
  fun h3 => h (BitVec.eq_of_toNat_eq h3)

/-- RDPRN with a known encoding, of an element that has a value, answers its view and changes nothing (R100). -/
theorem exec_rdprn_of_read {enc : BitVec 2} {i : BitVec 10} {s : State} {b : Bool} (henc : enc ≠ 3)
    (hi : i.toNat < s.gcnt.toNat) (hb : s.prn.read i.toNat = some b) :
    exec (.rdprn enc i) s = .next (afterRead (prnView enc b) s) := by
  refine exec_of_ok (i := .rdprn enc i) (b := s.block) (r := ⟨false, prnView enc b⟩) ?_
  simp only [blockCommand, blockRdprn]
  rw [if_neg (toNat_ne_three henc), if_neg (Nat.not_le.2 hi), hb]
  rfl

/-- GSTEP with legal taps, below GCNT = 1023, is one generator step and answers the bit emitted (R98). -/
theorem blockGstep_of_tapsLegal {s : Block} (htaps : tapsLegal s = true) (hcnt : s.gcnt.toNat ≠ 1023) :
    blockGstep s = .ok (generatorStep s, ⟨false, bitWord (nextBit s)⟩) :=
  (if_neg (mt prnFull_iff.1 hcnt)).trans (if_pos htaps)

/-- The counter counts on as a number. -/
theorem add_one_eq_ofNat (x : BitVec 10) : x + 1 = BitVec.ofNat 10 (x.toNat + 1) := by
  rw [BitVec.ofNat_add, BitVec.ofNat_toNat, BitVec.setWidth_eq]
  rfl

/-! ### GEN as GINIT and GSTEPs (R99) -/

theorem repeated_succ (n : Nat) (body : List Instr) : repeated (n + 1) body = body ++ repeated n body := rfl

/-- n GSTEPs with legal taps, while GCNT does not pass 1023, make n generator steps. -/
theorem execAll_gsteps (n : Nat) (s : State) (htaps : tapsLegal s.block = true) (hfit : s.gcnt.toNat + n ≤ 1023) :
    ∃ given, execAll (repeated n [.gstep]) s =
      .next { block := generatorSteps n s.block, inputs := s.inputs, responses := given } := by
  induction n generalizing s with
  | zero => exact ⟨s.responses, rfl⟩
  | succ n ih =>
    have hcnt : s.gcnt.toNat ≠ 1023 := by omega
    have hnext := toNat_add_one hcnt
    obtain ⟨given, hgiven⟩ := ih (reply s (generatorStep s.block) ⟨false, bitWord (nextBit s.block)⟩) htaps
      (by rw [reply_block, generatorStep_gcnt]; omega)
    refine ⟨given, ?_⟩
    rw [repeated_succ, List.singleton_append, execAll_cons_of_ok (i := .gstep) (blockGstep_of_tapsLegal htaps hcnt),
      hgiven]
    rfl

/-! ### Periods (R102) -/

theorem shiftTimes_eq_iterate (next : BitVec 10 → BitVec 10) (n : Nat) (g : BitVec 10) :
    shiftTimes next n g = next^[n] g := by
  induction n generalizing g with
  | zero => rfl
  | succ n ih => rw [shiftTimes, ih, Function.iterate_succ_apply]

/-- 1023 = 3 · 11 · 31: a proper divisor of it divides one of 341, 93 and 33. -/
theorem dvd_of_dvd_period {m : Nat} (h : m ∣ 1023) : m = 1023 ∨ m ∣ 341 ∨ m ∣ 93 ∨ m ∣ 33 := by
  have hdivisors : ∀ m ∈ Nat.divisors 1023, m = 1023 ∨ m ∣ 341 ∨ m ∣ 93 ∨ m ∣ 33 := by decide +kernel
  exact hdivisors m (Nat.mem_divisors.2 ⟨h, by decide⟩)

/-- A register that returns to a non-zero value is never 0 on the way, because it would stay there. -/
theorem shiftTimes_ne_zero {next : BitVec 10 → BitVec 10} (hzero : next 0 = 0) {g : BitVec 10} (hg : g ≠ 0)
    (hperiod : shiftTimes next 1023 g = g) (n : Nat) : shiftTimes next n g ≠ 0 := by
  intro hn
  have hreturn : shiftTimes next (1023 * n) g = g := by
    rw [shiftTimes_eq_iterate] at hperiod ⊢
    exact Function.IsPeriodicPt.mul_const hperiod n
  rw [show 1023 * n = n + 1022 * n by omega, shiftTimes_add, hn, shiftTimes_zero hzero] at hreturn
  exact hg hreturn.symm

/-- The 1023 values on the way are different, so they are all the non-zero values. -/
theorem exists_shiftTimes_eq {next : BitVec 10 → BitVec 10} {g : BitVec 10}
    (hperiod : Function.minimalPeriod next g = 1023) (hne : ∀ n, shiftTimes next n g ≠ 0) {x : BitVec 10}
    (hx : x ≠ 0) : ∃ n < 1023, shiftTimes next n g = x := by
  have hinj : Set.InjOn (shiftTimes next · g) (Finset.range 1023) := by
    simpa only [shiftTimes_eq_iterate, hperiod, Finset.coe_range] using
      Function.iterate_injOn_Iio_minimalPeriod (f := next) (x := g)
  have hsub : (Finset.range 1023).image (shiftTimes next · g) ⊆ Finset.univ.erase 0 :=
    Finset.image_subset_iff.2 fun n _ => Finset.mem_erase.2 ⟨hne n, Finset.mem_univ _⟩
  have hall := Finset.eq_of_subset_of_card_le hsub <| by
    rw [Finset.card_image_of_injOn hinj, Finset.card_erase_of_mem (Finset.mem_univ _), Finset.card_univ, card_bitVec,
      Finset.card_range]
    decide
  have hmem : x ∈ (Finset.range 1023).image (shiftTimes next · g) := by
    rw [hall]
    exact Finset.mem_erase.2 ⟨hx, Finset.mem_univ _⟩
  obtain ⟨n, hn, hnx⟩ := Finset.mem_image.1 hmem
  exact ⟨n, Finset.mem_range.1 hn, hnx⟩

/-! ### A register as a window on its stream -/

/-- Ten bits of a stream, from bit i on: what a shift register that emits the stream holds after i shifts. -/
def window (stream i : Nat) : BitVec 10 := BitVec.ofNat 10 (stream >>> i)

theorem getLsbD_window (stream i j : Nat) :
    (window stream i).getLsbD j = (decide (j < 10) && stream.testBit (i + j)) := by
  rw [window, BitVec.getLsbD_ofNat, Nat.testBit_shiftRight]

/-- The window moves on by one shift that inserts the stream's next bit. -/
theorem shiftIn_window (stream i : Nat) :
    shiftIn (stream.testBit (i + 10)) (window stream i) = window stream (i + 1) := by
  refine BitVec.eq_of_getLsbD_eq fun j hj => ?_
  rw [getLsbD_shiftIn, getLsbD_window, getLsbD_window, Nat.add_right_comm, Nat.add_assoc]
  split_ifs with h
  · simp [hj, Nat.succ_lt_succ h]
  · obtain rfl : j = 9 := by omega
    simp

/-- A register that moves as the window does shows the window after each of n shifts. -/
theorem shiftTimes_window {next : BitVec 10 → BitVec 10} {stream n : Nat}
    (h : ∀ i < n, next (window stream i) = window stream (i + 1)) {i : Nat} (hi : i ≤ n) :
    shiftTimes next i (window stream 0) = window stream i := by
  induction i with
  | zero => rfl
  | succ i ih => rw [shiftTimes_succ, ih (Nat.le_of_succ_le hi), h i hi]

/-- The bits G1 emits in 1023 shifts from 0x3FF and the ten it holds then: bit i is emitted at shift i. -/
def g1Stream : Nat :=
  0x1ff <<< 1024 |||
  0x80e1fb89f19f59649004091064d0950f5d6d8060d9856b8df88f3db4050b547d <<< 768 |||
  0xe4b04c8a36e078efe4316e86acf2d9044981629d9c5fa8bb5866d41d3d352707 <<< 512 |||
  0xce6f455be13a3afb4842958e7f611a72786ec63df4940d1974b4459a5230ede0 <<< 256 |||
  0xb95ceee67577b289b10e5f299954fcc6bcd698970bd55fe82a5e2bdd4dc8e3ff

/-- The bits G2 emits in 1023 shifts from 0x3FF and the ten it holds then: bit i is emitted at shift i. -/
def g2Stream : Nat :=
  0x1ff <<< 1024 |||
  0xb02593e56d9da23c0fe78cfa1addb831d9627a2ec6153a34cbc3bfc21f1f7740 <<< 768 |||
  0x1a0dd685f6d4dcc8820512a1c5ecd90a4d74d1ce6947e9cbab889808c4243338 <<< 512 |||
  0x05c2cf71c36facab30c1e6fc49c6ad63daf3ae4a5779074b9f933503298d8aa9 <<< 256 |||
  0x01c8ea3248b61ebfaa2845609b497ef48de29e5bdf31613b9416abe0af52d3ff

theorem testBit_eq_false_of_mod {x n i : Nat} (h : x % 2 ^ n = 0) (hi : i < n) : x.testBit i = false := by
  have hbit := congrArg (Nat.testBit · i) h
  simpa [Nat.testBit_mod_two_pow, hi] using hbit

/-- The stream of G1 obeys its feedback (R92). -/
theorem testBit_g1Stream {i : Nat} (hi : i < 1023) :
    g1Stream.testBit (i + 10) = (g1Stream.testBit i ^^ g1Stream.testBit (i + 7)) := by
  have h := testBit_eq_false_of_mod (x := g1Stream ^^^ g1Stream >>> 7 ^^^ g1Stream >>> 10) (by decide +kernel) hi
  simp only [Nat.testBit_xor, Nat.testBit_shiftRight, Nat.add_comm _ i, bne_eq_false_iff_eq] at h
  exact h.symm

/-- The stream of G2 obeys its feedback (R93). -/
theorem testBit_g2Stream {i : Nat} (hi : i < 1023) :
    g2Stream.testBit (i + 10) = (g2Stream.testBit i ^^ g2Stream.testBit (i + 1) ^^ g2Stream.testBit (i + 2) ^^
      g2Stream.testBit (i + 4) ^^ g2Stream.testBit (i + 7) ^^ g2Stream.testBit (i + 8)) := by
  have h := testBit_eq_false_of_mod (x := g2Stream ^^^ g2Stream >>> 1 ^^^ g2Stream >>> 2 ^^^ g2Stream >>> 4 ^^^
    g2Stream >>> 7 ^^^ g2Stream >>> 8 ^^^ g2Stream >>> 10) (by decide +kernel) hi
  simp only [Nat.testBit_xor, Nat.testBit_shiftRight, Nat.add_comm _ i, bne_eq_false_iff_eq] at h
  exact h.symm

theorem shiftTimes_next1 {i : Nat} (hi : i ≤ 1023) : shiftTimes next1 i 0x3FF = window g1Stream i := by
  refine shiftTimes_window (stream := g1Stream) (n := 1023) (fun j hj => ?_) hi
  rw [next1, ← shiftIn_window, testBit_g1Stream hj]
  simp only [getLsbD_window, Nat.reduceLT, decide_true, Bool.true_and, Nat.add_zero]

theorem shiftTimes_next2 {i : Nat} (hi : i ≤ 1023) : shiftTimes next2 i 0x3FF = window g2Stream i := by
  refine shiftTimes_window (stream := g2Stream) (n := 1023) (fun j hj => ?_) hi
  rw [next2, ← shiftIn_window, testBit_g2Stream hj]
  simp only [getLsbD_window, Nat.reduceLT, decide_true, Bool.true_and, Nat.add_zero]

/-- A register whose stream shows 0x3FF again at bit 1023, and not at bits 341, 93 and 33, has the period 1023. -/
theorem minimalPeriod_of_window {next : BitVec 10 → BitVec 10} {stream : Nat}
    (hwindow : ∀ i ≤ 1023, shiftTimes next i 0x3FF = window stream i) (hreturn : window stream 1023 = 0x3FF)
    (hproper : ∀ n ∈ [341, 93, 33], window stream n ≠ 0x3FF) : Function.minimalPeriod next 0x3FF = 1023 := by
  simp only [shiftTimes_eq_iterate] at hwindow
  have returns_at {n : Nat} (hn : n ≤ 1023) (h : Function.minimalPeriod next 0x3FF ∣ n) :
      window stream n = 0x3FF := by
    rw [← hwindow n hn]
    exact Function.isPeriodicPt_iff_minimalPeriod_dvd.2 h
  have hperiod : Function.IsPeriodicPt next 1023 0x3FF := (hwindow 1023 le_rfl).trans hreturn
  rcases dvd_of_dvd_period hperiod.minimalPeriod_dvd with h | h | h | h
  · exact h
  all_goals exact absurd (returns_at (by decide) h) (hproper _ (by decide))

theorem minimalPeriod_next1 : Function.minimalPeriod next1 0x3FF = 1023 :=
  minimalPeriod_of_window (fun _ => shiftTimes_next1) (by decide) (by decide)

theorem minimalPeriod_next2 : Function.minimalPeriod next2 0x3FF = 1023 :=
  minimalPeriod_of_window (fun _ => shiftTimes_next2) (by decide) (by decide)

/-! ### The code of two taps (R91, R96) -/

theorem combine_comm (g1 g2 : BitVec 10) (t1 t2 : BitVec 4) : combine g1 g2 t1 t2 = combine g1 g2 t2 t1 :=
  Bool.xor_right_comm ..

theorem combine_self (g1 g2 : BitVec 10) (t : BitVec 4) : combine g1 g2 t t = g1.getLsbD 0 := by
  rw [combine, Bool.xor_assoc, Bool.xor_self, Bool.xor_false]

theorem generateFrom_comm (t1 t2 : BitVec 4) (n : Nat) (g1 g2 : BitVec 10) :
    generateFrom t1 t2 n g1 g2 = generateFrom t2 t1 n g1 g2 := by
  induction n generalizing g1 g2 with
  | zero => rfl
  | succ n ih => rw [generateFrom, generateFrom, ih, combine_comm]

/-- A legal tap t of the window is the stream's bit 10 − t places on (R90). -/
theorem tapBit_window {t : BitVec 4} (ht : 1 ≤ t.toNat) (stream i : Nat) :
    tapBit (window stream i) t = (stream >>> (10 - t.toNat)).testBit i := by
  have hlt : 10 - t.toNat < 10 := by omega
  rw [tapBit, getLsbD_window, Nat.testBit_shiftRight, Nat.add_comm i]
  simp [hlt]

/-- The code of two taps as one number: bit i is the bit emitted at shift i. -/
def codeStream (t1 t2 : BitVec 4) : Nat :=
  g1Stream ^^^ g2Stream >>> (10 - t1.toNat) ^^^ g2Stream >>> (10 - t2.toNat)

theorem getElem?_generate_eq_testBit {t1 t2 : BitVec 4} (h1 : 1 ≤ t1.toNat) (h2 : 1 ≤ t2.toNat) {i : Nat}
    (hi : i < 1023) : (generate t1 t2)[i]? = some ((codeStream t1 t2).testBit i) := by
  rw [getElem?_generate _ _ hi, shiftTimes_next1 hi.le, shiftTimes_next2 hi.le, combine, tapBit_window h1,
    tapBit_window h2, getLsbD_window, codeStream, Nat.testBit_xor, Nat.testBit_xor]
  rfl

/-! ### Counting ones (R105) -/

/-- How many of the n low bits of a number are 1. -/
def onesBelow : Nat → Nat → Nat
  | 0, _ => 0
  | n + 1, x => x % 2 + onesBelow n (x / 2)

/-- A list of bits that are a number's low bits has as many ones as these. -/
theorem count_true_eq_onesBelow (bits : List Bool) (x : Nat) (h : ∀ i < bits.length, bits[i]? = some (x.testBit i)) :
    bits.count true = onesBelow bits.length x := by
  induction bits generalizing x with
  | nil => rfl
  | cons b bits ih =>
    have htail : ∀ i < bits.length, bits[i]? = some ((x / 2).testBit i) := fun i hi => by
      rw [← Nat.testBit_succ]
      exact h (i + 1) (Nat.succ_lt_succ hi)
    have hhead : b = decide (x % 2 = 1) := by
      have := Option.some.inj (h 0 (Nat.succ_pos _))
      rwa [Nat.testBit_zero] at this
    rw [List.count_cons, ih _ htail, List.length_cons, onesBelow, hhead]
    rcases Nat.mod_two_eq_zero_or_one x with hx | hx <;> simp [hx, Nat.add_comm]

theorem count_true_generate {t1 t2 : BitVec 4} (h1 : 1 ≤ t1.toNat) (h2 : 1 ≤ t2.toNat) :
    (generate t1 t2).count true = onesBelow 1023 (codeStream t1 t2) := by
  have h := count_true_eq_onesBelow (generate t1 t2) (codeStream t1 t2) fun i hi =>
    getElem?_generate_eq_testBit h1 h2 (by rwa [length_generate] at hi)
  rwa [length_generate] at h

/-- Every code of the default table has 512 ones, counted on its number (R33, R105). -/
theorem onesBelow_codeStream_default :
    ∀ p ∈ Config.defaultTapTable.toList, onesBelow 1023 (codeStream p.tap1 p.tap2) = 512 := by decide +kernel

/-! ### The obligations on the generator -/

/-- Settles O20: legal taps load and start the generator, others fail SETTAP's only check. -/
theorem settapStartsGenerator : Obligations.SettapStartsGenerator := by
  intro t1 t2 s
  refine ⟨decode_encode (.settap t1 t2), fun h => ?_, fun h => ?_⟩
  · exact exec_of_ok (i := .settap t1 t2) (if_pos (pairLegal_iff.2 h))
  · exact exec_of_takeFault (c := .tap) (if_neg (mt pairLegal_iff.1 h))

/-- Settles O21: the table has an entry k exactly below NSAT. -/
theorem selsatLoadsTableEntry : Obligations.SelsatLoadsTableEntry := by
  intro k s
  refine ⟨decode_encode (.selsat k), fun p hp => ?_, fun hk => ?_⟩
  · have hselect : blockCommand (.selsat k) s.block = .ok (selectEntry k.toNat p s.block, ⟨false, 0⟩) := by
      simp only [blockCommand, blockSelsat, hp]
      rfl
    rw [exec_of_ok hselect, selectEntry, BitVec.ofNat_toNat, BitVec.setWidth_eq]
    rfl
  · refine exec_of_takeFault (c := .satellite) ?_
    simp only [blockCommand, blockSelsat, toList_getElem?_none.2 hk]

/-- Settles O22: GINIT starts the generator and nothing else. -/
theorem ginitGivesFreshRegisters : Obligations.GinitGivesFreshRegisters :=
  ⟨decode_encode .ginit, fun _ => exec_of_ok (i := .ginit) rfl⟩

/-- Settles O23: one generator step, its shifts written as arithmetic. -/
theorem gstepEmitsAndAdvances : Obligations.GstepEmitsAndAdvances := by
  refine ⟨decode_encode .gstep, fun s => ⟨fun h => ?_, fun h htap1 htap2 => ?_⟩⟩
  · exact exec_of_takeFault (c := .genOverrun) (if_pos (prnFull_iff.2 (toNat_1023.2 h)))
  · have hstep := blockGstep_of_tapsLegal (tapsLegal_iff.2 ⟨htap1, htap2⟩) (mt toNat_1023.1 h)
    refine ⟨_, _, _, _, rfl, rfl, rfl, exec_of_ok (i := .gstep) hstep, ?_, Memory.read_write_same .., fun a ha =>
      Memory.read_write_other _ _ ha⟩
    unfold bitNat
    rw [← shiftIn_eq_or, ← shiftIn_eq_or, ← add_one_eq_ofNat, bitWord_eq_ofNat]
    rfl

/-- Settles O24: GEN's loop leaves the code, and both registers are back where they started. -/
theorem genFillsPrnWithTheCode : Obligations.GenFillsPrnWithTheCode := by
  refine ⟨decode_encode .gen, fun s htap1 htap2 => ?_⟩
  obtain ⟨b, hgen⟩ := blockGen_of_tapsLegal (tapsLegal_iff.2 ⟨htap1, htap2⟩)
  obtain ⟨hb, hg1, hg2, hprn⟩ := runGenerator_spec (blockGen_cases hgen).1
  rw [hg1.trans (shiftTimes_period (.inl rfl)), hg2.trans (shiftTimes_period (.inr rfl))] at hb
  obtain ⟨hlen, hread⟩ := Memory.sequence_spec hprn
  refine ⟨_, exec_of_ok (i := .gen) hgen, by rw [hb]; rfl, fun i hi => ?_, fun i hi => ?_⟩
  · exact (hread i).trans (getElem?_generate _ _ hi)
  · exact (hread i).trans (List.getElem?_eq_none (by omega))

/-- Settles O25: both make 1023 generator steps from the state GINIT leaves. -/
theorem genIsGinitThenGsteps : Obligations.GenIsGinitThenGsteps := by
  intro s htap1 htap2
  have htaps : tapsLegal s.block = true := tapsLegal_iff.2 ⟨htap1, htap2⟩
  obtain ⟨given, hsteps⟩ := execAll_gsteps 1023 (reply s (startGenerator s.block) ⟨false, 0⟩) htaps le_rfl
  have hgen : blockGen s.block = .ok (generatorSteps 1023 (startGenerator s.block), ⟨false, 0⟩) :=
    finish_eq_ok.2 ⟨if_pos htaps, rfl⟩
  exact ⟨_, _, exec_of_ok (i := .gen) hgen, (execAll_cons_of_ok (i := .ginit) rfl _).trans hsteps, rfl⟩

/-- Settles O26: RDPRN's checks in R100's order, then the view asked for. -/
theorem rdprnViewsOneBit : Obligations.RdprnViewsOneBit := by
  intro i s
  refine ⟨fun enc => decode_encode (.rdprn enc i), exec_of_takeFault (c := .illegal) rfl, fun enc henc hi => ?_,
    fun b hi hb => ?_⟩
  · exact exec_of_takeFault (c := .index) ((if_neg (toNat_ne_three henc)).trans (if_pos hi))
  · rw [← bitWord_eq_ofNat, ← prnView_mask, ← prnView_bipolar]
    exact ⟨exec_rdprn_of_read (by decide) hi hb, exec_rdprn_of_read (by decide) hi hb,
      exec_rdprn_of_read (by decide) hi hb⟩

/-- Settles O27: the period divides 1023 and no proper divisor of it, so the 1023 values are all the non-zero ones. -/
theorem registersHaveFullPeriod : Obligations.RegistersHaveFullPeriod := by
  intro next hnext
  have hcases : next = next1 ∨ next = next2 := by simpa using hnext
  have hreturn := shiftTimes_period hcases
  have hzero : next 0 = 0 := by rcases hcases with rfl | rfl <;> decide
  have hperiod : Function.minimalPeriod next 0x3FF = 1023 := by
    rcases hcases with rfl | rfl
    exacts [minimalPeriod_next1, minimalPeriod_next2]
  have hne := shiftTimes_ne_zero hzero (by decide) hreturn
  refine ⟨hreturn, fun n hpos hlt => ?_, fun g hg => exists_shiftTimes_eq hperiod hne hg, hne⟩
  rw [shiftTimes_eq_iterate]
  exact Function.not_isPeriodicPt_of_pos_of_lt_minimalPeriod (by omega) (by rwa [hperiod])

/-- Settles O28: the combiner's two taps commute, and equal taps cancel. -/
theorem codeSymmetryAndEqualTaps : Obligations.CodeSymmetryAndEqualTaps := by
  refine ⟨fun t1 t2 => generateFrom_comm .., fun t i hi => ?_⟩
  rw [getElem?_generate _ _ hi, combine_self]

/-- Settles O29: the ones of each code are counted on its number, the zeros are the rest of the 1023 bits. -/
theorem defaultCodesAreBalanced : Obligations.DefaultCodesAreBalanced := by
  obtain ⟨-, hlegal⟩ := tableLegal_iff.1 (by decide : tableLegal Config.defaultTapTable = true)
  refine ⟨fun p hp => ?_, ?_⟩
  · obtain ⟨⟨htap1, -⟩, ⟨htap2, -⟩⟩ := hlegal p hp
    have hones : (generate p.tap1 p.tap2).count true = 512 :=
      (count_true_generate htap1 htap2).trans (onesBelow_codeStream_default p hp)
    have hall := List.count_false_add_count_true (generate p.tap1 p.tap2)
    rw [length_generate] at hall
    exact ⟨hones, by omega⟩
  · rw [count_true_generate (by decide) (by decide)]
    decide +kernel

/-- Settles O46: what a generator command writes is in the fields it may write, and a fault writes ERR and CAUSE. -/
theorem generatorFrame : Obligations.GeneratorFrame := by
  intro s t
  refine ⟨fun t1 t2 h => ?_, fun k h => ?_, fun i hi h => ?_, fun h => ?_⟩
  all_goals
    rw [exec_eq_serve] at h
    obtain ⟨b, r, hb, rfl⟩ := serve_eq_next.1 h
  · rcases blockSettap_cases hb with ⟨-, rfl, -⟩ | ⟨-, rfl, -⟩
    · exact ⟨rfl, fun _ => rfl, fun _ => rfl⟩
    · rw [recordCause_eq]
      exact ⟨rfl, fun _ => rfl, fun _ => rfl⟩
  · rcases blockSelsat_cases hb with ⟨p, -, rfl, -⟩ | ⟨-, rfl, -⟩
    · exact ⟨rfl, fun _ => rfl, fun _ => rfl⟩
    · rw [recordCause_eq]
      exact ⟨rfl, fun _ => rfl, fun _ => rfl⟩
  · obtain rfl | rfl | rfl : i = .ginit ∨ i = .gstep ∨ i = .gen := by simpa using hi
    · rw [(blockGinit_cases hb).1]
      exact ⟨rfl, fun _ => rfl, fun _ => rfl⟩
    · rcases blockGstep_cases hb with ⟨-, -, rfl, -⟩ | ⟨-, rfl, -⟩
      · exact ⟨rfl, fun _ => rfl, fun _ => rfl⟩
      · rw [recordCause_eq]
        exact ⟨rfl, fun _ => rfl, fun _ => rfl⟩
    · rw [(runGenerator_spec (blockGen_cases hb).1).1]
      exact ⟨rfl, fun _ => rfl, fun _ => rfl⟩
  · intro a ha
    rcases blockGstep_cases hb with ⟨-, -, rfl, -⟩ | ⟨-, rfl, -⟩
    · exact Memory.read_write_other _ _ ha
    · rw [reply_block, recordCause_prn]

end Sys2Proof.Machine

/-! The correlator (41_correlator.md): the two ways to evaluate a sum, its bound, what each of the correlator's commands
does and leaves unchanged, and that no step stops the model. -/

namespace Sys2Proof.Machine

/-! ### The vectorized sum (R129 to R131) -/

/-- The sum over the lanes is the sum of the samples. -/
theorem laneSum_eq_sum_map (l : List Sample) : laneSum l = (l.map BitVec.toInt).sum := by
  induction l with
  | nil => rfl
  | cons v l ih => rw [laneSum, ih, List.map_cons, List.sum_cons]

/-- Rotating keeps the sum of the samples. -/
theorem laneSum_rotateChips (o : Nat) (chips : List Sample) : laneSum (rotateChips o chips) = laneSum chips := by
  rw [rotateChips, laneSum_append, add_comm, ← laneSum_append, List.take_append_drop]

/-- Lanes of the PRN padding add nothing (R130). -/
theorem laneSum_and_zeros (l : List Sample) (n : Nat) :
    laneSum (List.zipWith (· &&& ·) l (List.replicate n 0#8)) = 0 := by
  induction n generalizing l with
  | zero => rw [List.replicate_zero, List.zipWith_nil_right]; rfl
  | succ n ih =>
    cases l with
    | nil => rfl
    | cons v l => rw [List.replicate_succ, List.zipWith_cons_cons, laneSum, BitVec.and_zero, ih]; rfl

/-- A sample masked by a bit, doubled, exceeds the sample by the product sample · sign (R131). -/
theorem two_mul_toInt_and_maskOf (v : Sample) (b : Bool) :
    2 * (v &&& maskOf b).toInt = v.toInt * signOf b + v.toInt := by
  cases b with
  | false =>
    have hmask : v &&& maskOf false = 0#8 := BitVec.and_zero
    rw [hmask, signOf, if_neg Bool.false_ne_true]
    simp
  | true =>
    have hmask : v &&& maskOf true = v := BitVec.and_allOnes
    rw [hmask, signOf, if_pos rfl]
    ring

/-- Twice the AND-sum of samples and bits is the sum of their signed products plus the sum of the samples (R131). -/
theorem two_mul_laneSum_and_masks (chips : List Sample) (bits : List Bool) (h : chips.length = bits.length) :
    2 * laneSum (List.zipWith (· &&& ·) chips (bits.map maskOf)) = dotSigns chips bits + laneSum chips := by
  induction chips generalizing bits with
  | nil => cases bits <;> rfl
  | cons v chips ih =>
    cases bits with
    | nil => cases h
    | cons b bits =>
      have hlane := two_mul_toInt_and_maskOf v b
      have htail := ih bits (by simpa using h)
      rw [List.map_cons, List.zipWith_cons_cons, laneSum, laneSum, dotSigns]
      omega

/-- From offset o on, XCHIP begins with the rotated sequence (R129). -/
theorem drop_xchip (vw : Nat) {chips : List Sample} {o : Nat} (ho : o ≤ chips.length) :
    ∃ rest, (xchip vw chips).drop o = rotateChips o chips ++ rest := by
  refine ⟨chips.drop o ++ List.replicate (xlen vw - 2 * Config.period) 0#8, ?_⟩
  rw [xchip, List.append_assoc, List.drop_append_of_le_length ho, rotateChips]
  simp only [List.append_assoc]
  rw [← List.append_assoc (chips.take o), List.take_append_drop]

/-- Any positive width rounds 1023 up to a whole number of groups (R129). -/
theorem period_le_plen {vw : Nat} (hvw : 0 < vw) : 1023 ≤ plen vw := by
  have hdiv := Nat.div_add_mod (1023 + vw - 1) vw
  have hmod := Nat.mod_lt (1023 + vw - 1) hvw
  rw [plen, period_eq]
  omega

/-- The groups cover every lane of XPRN, so the AND-sum is the sum over all lanes (R130). -/
theorem andSum_eq_laneSum {vw : Nat} (hvw : 0 < vw) (chips : List Sample) {bits : List Bool} (hb : bits.length = 1023)
    (o : Nat) :
    andSum vw chips bits o = laneSum (List.zipWith (· &&& ·) ((xchip vw chips).drop o) (xprn vw bits)) := by
  refine groupSums_eq_laneSum _ _ _ ?_
  have hplen := period_le_plen hvw
  have hgroups : plen vw / vw * vw = plen vw := Nat.div_mul_cancel (Nat.dvd_mul_right ..)
  simp only [xprn, List.length_zipWith, List.length_append, List.length_map, List.length_replicate, hb, period_eq,
    hgroups]
  omega

/-- R131 at every positive width: the vectorized sum is the scalar sum. -/
theorem vectorSum_eq_scalarSum {vw : Nat} (hvw : 0 < vw) {chips : List Sample} {bits : List Bool}
    (hc : chips.length = 1023) (hb : bits.length = 1023) {o : Nat} (ho : o ≤ 1022) :
    vectorSum vw chips bits o = scalarSum chips bits o := by
  obtain ⟨rest, hrest⟩ := drop_xchip vw (chips := chips) (o := o) (by omega)
  have hlen : (rotateChips o chips).length = (bits.map maskOf).length := by simp [hc, hb]
  have hmasks := two_mul_laneSum_and_masks (rotateChips o chips) bits (by simpa using hlen)
  rw [laneSum_rotateChips] at hmasks
  rw [vectorSum, andSum_eq_laneSum hvw chips hb, hrest, xprn, List.zipWith_append hlen, laneSum_append,
    laneSum_and_zeros, add_zero, hmasks, scalarSum, add_sub_cancel_right]

theorem vectorWidths_pos {vw : Nat} (h : vw ∈ Config.vectorWidths) : 0 < vw := by
  revert vw
  decide

/-! ### Bounds (R127, R133) -/

theorem circularSum_mod (c : Nat → Sample) (p : Nat → Bool) (o : Nat) :
    circularSum c p (o % 1023) = circularSum c p o := by
  simp only [circularSum, Nat.mod_add_mod]

/-- R119's sum has magnitude at most 128 · 1023, at every offset (R127). -/
theorem natAbs_circularSum_le (c : Nat → Sample) (p : Nat → Bool) (o : Nat) : (circularSum c p o).natAbs ≤ 130944 := by
  rw [← circularSum_mod, ← scalarSum_eq_circularSum c p (by omega)]
  exact natAbs_scalarSum_le _ (by simp) _

/-- A sum of products whose samples have magnitude at most m is at most m times the number of bits. -/
theorem natAbs_dotSigns_le_mul {m : Nat} (chips : List Sample) (bits : List Bool)
    (h : ∀ v ∈ chips, v.toInt.natAbs ≤ m) : (dotSigns chips bits).natAbs ≤ m * bits.length := by
  induction chips generalizing bits with
  | nil => simp [dotSigns]
  | cons v chips ih =>
    cases bits with
    | nil => simp [dotSigns]
    | cons b bits =>
      rw [List.forall_mem_cons] at h
      have htail := ih bits h.2
      have hterm : (v.toInt * signOf b).natAbs = v.toInt.natAbs := by cases b <;> simp [signOf]
      rw [dotSigns, List.length_cons, Nat.mul_succ]
      omega

/-! ### Special sequences (R120, R133) -/

theorem rotateChips_replicate {n o : Nat} (ho : o ≤ n) (a : Sample) :
    rotateChips o (List.replicate n a) = List.replicate n a := by
  rw [rotateChips, List.drop_replicate, List.take_replicate, List.replicate_append_replicate]
  congr 1
  omega

/-- A constant sequence sums to its value times ones minus zeros (R120). -/
theorem dotSigns_replicate (a : Sample) (bits : List Bool) :
    dotSigns (List.replicate bits.length a) bits = a.toInt * (bits.count true - bits.count false) := by
  induction bits with
  | nil => simp [dotSigns]
  | cons b bits ih =>
    rw [List.length_cons, List.replicate_succ, dotSigns, ih]
    cases b <;> simp [signOf] <;> ring

/-- The bipolar sample of a bit: +1 or −1 (R118). -/
def bipolarSample (b : Bool) : Sample := if b then 1#8 else BitVec.ofInt 8 (-1)

theorem toInt_bipolarSample (b : Bool) : (bipolarSample b).toInt = signOf b := by cases b <;> decide

/-- Every bit times itself counts 1 (R133). -/
theorem dotSigns_bipolarSample (bits : List Bool) : dotSigns (bits.map bipolarSample) bits = bits.length := by
  induction bits with
  | nil => rfl
  | cons b bits ih =>
    have hterm : signOf b * signOf b = 1 := by cases b <;> rfl
    rw [List.map_cons, dotSigns, ih, toInt_bipolarSample, hterm, List.length_cons]
    omega

theorem natAbs_scalarSum_bipolarSample_le (bits bits' : List Bool) (o : Nat) :
    (scalarSum (bits.map bipolarSample) bits' o).natAbs ≤ bits'.length := by
  refine (natAbs_dotSigns_le_mul (m := 1) _ _ fun v hv => ?_).trans_eq (one_mul _)
  have hmem : v ∈ bits.map bipolarSample := by
    rcases List.mem_append.1 hv with h | h
    exacts [List.mem_of_mem_drop h, List.mem_of_mem_take h]
  obtain ⟨b, -, rfl⟩ := List.mem_map.1 hmem
  cases b <;> decide

/-- A crossing at offset 0 ends the search there (R121). -/
theorem search_of_exceeds_zero {sum : Nat → Int} {th : Nat} (h : exceeds (sum 0) th = true) :
    search sum th = ⟨sum 0, 0, true⟩ := if_pos h

/-! ### The strategies (R128, R132) -/

/-- Every strategy of R128 computes the scalar sum on whole sequences. -/
theorem sumBy_eq_scalarSum {st : Strategy} (hst : st = .scalar ∨ ∃ vw ∈ Config.vectorWidths, st = .vectorized vw)
    {chips : List Sample} {bits : List Bool} (hc : chips.length = 1023) (hb : bits.length = 1023) {o : Nat}
    (ho : o ≤ 1022) : sumBy st chips bits o = scalarSum chips bits o := by
  rcases hst with rfl | ⟨vw, hvw, rfl⟩
  · rfl
  · exact vectorSum_eq_scalarSum (vectorWidths_pos hvw) hc hb ho

/-- Computations that agree on the sequences of 1023 elements end the same on a block. -/
theorem onSequences_congr {s : Block} {f g : List Sample → List Bool → Block}
    (h : ∀ chips bits, chips.length = 1023 → bits.length = 1023 → f chips bits = g chips bits) :
    onSequences s f = onSequences s g := by
  unfold onSequences
  split
  · rename_i chips bits hc hb
    rw [h chips bits (Memory.sequence_spec hc).1 (Memory.sequence_spec hb).1]
  · rfl

/-- SCAN's loop depends on the strategy through CORR's work only. -/
theorem scanFrom_congr {st st' : Strategy} (h : correlateState st = correlateState st') (k : Nat) (ps : List TapPair)
    (s : Block) : scanFrom st k ps s = scanFrom st' k ps s := by
  induction ps generalizing k s with
  | nil => rfl
  | cons p ps ih => simp only [scanFrom, scanEntry, h, ih]

/-- CORR's work is the same under both strategies. -/
theorem correlateState_vectorized {vw : Nat} (hvw : vw ∈ Config.vectorWidths) :
    correlateState (.vectorized vw) = correlateState .scalar := by
  funext s
  refine onSequences_congr fun chips bits hc hb => ?_
  have hsums : ∀ o ≤ 1022, sumsBy (.vectorized vw) chips bits o = sumsBy .scalar chips bits o :=
    fun o ho => sumBy_eq_scalarSum (.inr ⟨vw, hvw, rfl⟩) hc hb ho
  rw [search_congr s.thresh.toNat hsums]

/-! ### The commands -/

/-- A sum within the bound of R127, in ACC and sign-extended to a word, is the word of that integer (R11, R28). -/
theorem signExtend_ofInt_of_bound {z : Int} (h : z.natAbs ≤ 130944) :
    (BitVec.ofInt 18 z).signExtend 32 = BitVec.ofInt 32 z := by
  rw [signExtend_eq_ofInt, toInt_ofInt_of_bound h]

/-- In a well-shaped state with CHIPCNT = 1023, samples read by index are the whole captured sequence. -/
theorem chip_sequence_of_reads {s : Block} (hs : MemoryShape s) (hn : s.chipcnt = 1023) {c : Nat → Sample}
    (hc : ∀ j < 1023, Memory.read s.chip j = some (c j)) :
    Memory.sequence s.chip 1023 = some ((List.range 1023).map c) :=
  sequence_of_chipsAre hs (toNat_1023.2 hn) (reads_ofFn hc)

/-- In a well-shaped state with GCNT = 1023, bits read by index are the whole code. -/
theorem prn_sequence_of_reads {s : Block} (hs : MemoryShape s) (hn : s.gcnt = 1023) {p : Nat → Bool}
    (hp : ∀ i < 1023, s.prn.read i = some (p i)) : s.prn.sequence 1023 = some ((List.range 1023).map p) :=
  sequence_of_prnIs hs (toNat_1023.2 hn) (reads_ofFn hp)

/-- The sign test of R116 on ACC: a non-zero sum within the bound is positive exactly when ACC's sign bit is 0. -/
theorem decide_pos_eq_not_msb {z : Int} (h : z.natAbs ≤ 130944) (hz : z ≠ 0) :
    decide (0 < z) = !(BitVec.ofInt 18 z).msb := by
  rw [BitVec.msb_eq_toInt, toInt_ofInt_of_bound h, ← decide_not, decide_eq_decide]
  omega

theorem toNat_ofNat_offset {o : Nat} (ho : o ≤ 1022) : (BitVec.ofNat 10 o).toNat = o := by
  rw [BitVec.toNat_ofNat, Nat.mod_eq_of_lt (by omega)]

theorem detectionOf_of_found {r : Search} (h : r.found = true) :
    detectionOf r = ⟨true, decide (0 < r.sum), BitVec.ofNat 10 r.offset⟩ := if_pos h

/-- CORR answers the RESULT it stores, with DONE = 1 (R85, R122). -/
theorem resultReg_storeSearch (r : Search) (s : Block) :
    resultReg (storeSearch r s) = (resultWord true (detectionOf r)).setWidth 32 := rfl

/-- CORR's rdata for a detection: DONE, DET, BIT and OFFSET as one number (R85). -/
theorem resultWord_of_detection {b : Bool} {o : Nat} (ho : o ≤ 1022) :
    (resultWord true ⟨true, b, BitVec.ofNat 10 o⟩).setWidth 32 = BitVec.ofNat 32 (0x1800 + 0x400 * bitNat b + o) := by
  rw [setWidth_eq_ofNat, toNat_resultWord, toNat_ofNat_offset ho]
  rfl

/-! ### The obligations on the correlator -/

/-- Settles O31: the sample is written at the counter, and the counter does not wrap. -/
theorem ldchipAppendsOneSample : Obligations.LdchipAppendsOneSample := by
  intro v s
  refine ⟨decode_encode (.ldchip v), fun h => ?_, fun h => ?_⟩
  · exact exec_of_takeFault (c := .chipFull) (if_pos (chipFull_iff.2 (toNat_1023.2 h)))
  · have hroom : s.chipcnt.toNat ≠ 1023 := mt toNat_1023.1 h
    refine ⟨_, exec_of_ok (i := .ldchip v) (if_neg (mt chipFull_iff.1 hroom)), ?_, toNat_add_one hroom,
      Memory.read_write_same .., fun a ha => Memory.read_write_other _ _ ha⟩
    rw [← add_one_eq_ofNat]
    rfl

/-- Settles O34: the memories' sequences give the machine's sum, and that is R119's. -/
theorem csumIsTheCircularSum : Obligations.CsumIsTheCircularSum := by
  intro o s c p hshape ho hchipcnt hgcnt hc hp
  have ho' : o.toNat ≠ 1023 := mt toNat_1023.1 ho
  have hbound := natAbs_circularSum_le c p o.toNat
  have hcsum := blockCsum_of_sequences ho' (chipFull_iff.2 (toNat_1023.2 hchipcnt)) (prnFull_iff.2 (toNat_1023.2 hgcnt))
    (chip_sequence_of_reads hshape hchipcnt hc) (prn_sequence_of_reads hshape hgcnt hp)
  rw [scalarSum_eq_circularSum c p (by omega), signExtend_ofInt_of_bound hbound] at hcsum
  refine ⟨?_, toInt_ofInt_of_bound hbound⟩
  rw [exec_of_ok (i := .csum o) hcsum, storeSum, BitVec.ofNat_toNat, BitVec.setWidth_eq]
  rfl

/-- Settles O35: every strategy computes the scalar sum, 1023 terms of magnitude at most 128. -/
theorem sumsNeverOverflow : Obligations.SumsNeverOverflow := by
  refine ⟨natAbs_circularSum_le, fun st chips bits o hst hc hb ho => ?_⟩
  rw [sumBy_eq_scalarSum hst hc hb ho]
  have hbound := natAbs_scalarSum_le chips hb o
  exact ⟨hbound, toInt_ofInt_of_bound hbound, by rw [BitVec.toNat_ofNat, Nat.mod_eq_of_lt (by omega)]⟩

/-- Settles O36: what CORR's search finds, stored in the registers. -/
theorem corrReportsFirstCrossing : Obligations.CorrReportsFirstCrossing := by
  refine ⟨decode_encode .corr, fun s c p hshape hchipcnt hgcnt hc hp => ?_⟩
  have hcorr := blockCorr_of_sequences (chipFull_iff.2 (toNat_1023.2 hchipcnt)) (prnFull_iff.2 (toNat_1023.2 hgcnt))
    (chip_sequence_of_reads hshape hchipcnt hc) (prn_sequence_of_reads hshape hgcnt hp)
  rw [search_congr _ fun o ho => scalarSum_eq_circularSum c p ho] at hcorr
  obtain ⟨hsum, hoffset, hbefore, hfound, hlast⟩ := search_spec (circularSum c p) s.thresh.toNat
  generalize search (circularSum c p) s.thresh.toNat = r at hcorr hsum hoffset hbefore hfound hlast
  have hbound := natAbs_circularSum_le c p r.offset
  refine ⟨_, r.offset, exec_of_ok (i := .corr) hcorr, hoffset, fun o ho => by simpa [exceeds] using hbefore o ho, ?_, ?_,
    fun hcross => ?_, fun hquiet => ?_, rfl⟩
  all_goals rw [reply_block]
  · rw [storeSearch_acc, hsum, toInt_ofInt_of_bound hbound]
  · rw [storeSearch_ofs, toNat_ofNat_offset hoffset]
  · have hdetected := detectionOf_of_found (r := r) (by simpa [hfound, exceeds] using hcross)
    have hbit := decide_pos_eq_not_msb hbound (by omega)
    rw [reply_responses, storeSearch_acc, resultReg_storeSearch, storeSearch_result, hdetected, hsum, hbit]
    exact ⟨rfl, rfl, by rw [resultWord_of_detection hoffset]⟩
  · have hmissed : r.found = false := by simpa [hfound, exceeds] using hquiet
    rw [reply_responses, resultReg_storeSearch, storeSearch_result, detectionOf_of_not_found hmissed]
    exact ⟨hlast hmissed, rfl, rfl⟩

/-- Settles O38: rotating a constant sequence changes nothing. -/
theorem constantChipsSum : Obligations.ConstantChipsSum := by
  intro a bits o hb ho
  rw [scalarSum, rotateChips_replicate (by omega), ← hb, dotSigns_replicate]

/-- Settles O39: at offset 0 every term is 1, and elsewhere no term is larger. -/
theorem autocorrelationPeak : Obligations.AutocorrelationPeak := by
  intro bits chips hb hchips
  obtain rfl : chips = bits.map bipolarSample := hchips
  have hpeak : scalarSum (bits.map bipolarSample) bits 0 = 1023 := by
    rw [scalarSum, rotateChips, List.drop_zero, List.take_zero, List.append_nil, dotSigns_bipolarSample, hb]
    rfl
  refine ⟨hpeak, fun o _ => (natAbs_scalarSum_bipolarSample_le bits bits o).trans_eq hb, ?_⟩
  have hcross : exceeds (scalarSum (bits.map bipolarSample) bits 0) 200 = true := by
    rw [hpeak]
    rfl
  rw [correlate, search_of_exceeds_zero hcross, hpeak]
  rfl

/-- Settles O40: the vectorized sum with T written as a sum over the samples. -/
theorem vectorizedSumIsScalarSum : Obligations.VectorizedSumIsScalarSum := by
  intro vw hvw chips bits o hc hb ho
  rw [← laneSum_eq_sum_map]
  exact vectorSum_eq_scalarSum (vectorWidths_pos hvw) hc hb ho

/-- Settles O41: CSUM, CORR and SCAN read the strategy through the sums alone. -/
theorem strategiesAgree : Obligations.StrategiesAgree := by
  intro vw hvw s
  have hcorrelate := correlateState_vectorized hvw
  refine ⟨fun o ho => onSequences_congr fun chips bits hc hb => ?_, congrFun hcorrelate s, ?_⟩
  · rw [sumBy_eq_scalarSum (.inr ⟨vw, hvw, rfl⟩) hc hb ho]
    rfl
  · simp only [scanState, scanFrom_congr hcorrelate]

/-- Settles O47: what a loading command writes is in the fields it may write, and a fault writes ERR and CAUSE. -/
theorem loadFrame : Obligations.LoadFrame := by
  intro s t
  refine ⟨fun v h => ?_, fun v h => ?_, fun h => ?_⟩
  all_goals
    rw [exec_eq_serve] at h
    obtain ⟨b, r, hb, rfl⟩ := serve_eq_next.1 h
  · obtain ⟨rfl, -⟩ := blockSetthr_cases hb
    exact ⟨rfl, fun _ => rfl, fun _ => rfl⟩
  · rcases blockLdchip_cases hb with ⟨-, rfl, -⟩ | ⟨-, rfl, -⟩
    · exact ⟨rfl, fun _ => rfl, fun a ha => Memory.read_write_other _ _ ha⟩
    · rw [recordCause_eq]
      exact ⟨rfl, fun _ => rfl, fun _ _ => rfl⟩
  · obtain ⟨rfl, -⟩ := blockClrchip_cases hb
    exact ⟨rfl, fun _ => rfl⟩

/-- Settles O48: CSUM and CORR store a sum and a search, SCAN writes the fields scanState_frame names, and a fault writes
ERR and CAUSE. -/
theorem correlatorAndScannerFrame : Obligations.CorrelatorAndScannerFrame := by
  intro s t
  refine ⟨fun o h => ?_, fun h => ?_, fun h => ?_⟩
  all_goals
    rw [exec_eq_serve] at h
    obtain ⟨b, r, hb, rfl⟩ := serve_eq_next.1 h
  · rcases blockCsum_cases hb with ⟨c, rfl, -⟩ | ⟨-, -, -, _, _, -, -, rfl, -⟩
    · rw [recordCause_eq]
      exact ⟨rfl, fun _ => rfl, fun _ => rfl, fun _ => rfl⟩
    · exact ⟨rfl, fun _ => rfl, fun _ => rfl, fun _ => rfl⟩
  · rcases blockCorr_cases hb with ⟨c, rfl, -⟩ | ⟨-, -, _, _, _, -, -, -, rfl, -⟩
    · rw [recordCause_eq]
      exact ⟨rfl, fun _ => rfl, fun _ => rfl, fun _ => rfl⟩
    · exact ⟨rfl, fun _ => rfl, fun _ => rfl, fun _ => rfl⟩
  · rcases blockScan_cases hb with ⟨-, rfl, -⟩ | ⟨-, hscan, -⟩
    · rw [recordCause_eq]
      exact ⟨rfl, fun _ => rfl⟩
    · rw [scanState_frame hscan]
      exact ⟨rfl, fun _ => rfl⟩

/-- Settles O57: the port answers every word, and with nothing queued or on reset there is nothing to stop at. -/
theorem stepAlwaysAnswers : Obligations.StepAlwaysAnswers := by
  intro s hl hm
  cases hi : s.inputs with
  | nil => exact ⟨s, by rw [step, hi]⟩
  | cons e rest =>
    cases e with
    | command w =>
      obtain ⟨b, r, hport⟩ := port_answers hl hm w
      exact ⟨_, (step_command hi).trans (serve_of_ok hport)⟩
    | reset => exact ⟨resetBlock { s with inputs := rest }, by rw [step, hi]; rfl⟩
    | resetDuringCommand => exact ⟨interruptByReset { s with inputs := rest }, by rw [step, hi]; rfl⟩

/-- Settles O30: CLRCHIP's transition, field by field. -/
theorem clrchipForgetsChips : Obligations.ClrchipForgetsChips :=
  ⟨decode_encode .clrchip, fun _ => exec_of_ok (i := .clrchip) rfl⟩

/-- Settles O32: RDCHIP's check, then the sample with its sign. -/
theorem rdchipReadsOneSample : Obligations.RdchipReadsOneSample := by
  intro i s
  refine ⟨decode_encode (.rdchip i), fun v hi hv => ?_, fun hi => exec_of_takeFault (c := .index) (if_pos hi)⟩
  have hread : blockCommand (.rdchip i) s.block = .ok (s.block, ⟨false, BitVec.ofInt 32 v.toInt⟩) := by
    simp only [blockCommand, blockRdchip]
    rw [if_neg (Nat.not_le.2 hi), hv]
    rfl
  exact exec_of_ok hread

/-- Settles O33: SETTHR's transition, field by field. -/
theorem setthrClearsResults : Obligations.SetthrClearsResults :=
  fun v _ => ⟨decode_encode (.setthr v), exec_of_ok (i := .setthr v) rfl⟩

end Sys2Proof.Machine

/-! The scanner and housekeeping (42_scanner.md): what NOP, RDREG and RDSAT answer, what SCAN stores for every entry of
the table, and that an entry depends on the captured sequence, the threshold and its own taps alone. -/

namespace Sys2Proof.Machine

/-! ### The words that are read, as numbers (R35, R85) -/

/-- DONE, DET, BIT and OFFSET as one number, in a word (R85). -/
theorem setWidth_resultWord (done : Bool) (d : Detection) :
    (resultWord done d).setWidth 32 =
      BitVec.ofNat 32 (4096 * bitNat done + 2048 * bitNat d.det + 1024 * bitNat d.bit + d.offset.toNat) := by
  rw [setWidth_eq_ofNat, toNat_resultWord]
  rfl

theorem setWidth_tapWord (s : Block) :
    (tapWord s).setWidth 32 = BitVec.ofNat 32 (16 * s.tap1.toNat + s.tap2.toNat) := by
  rw [setWidth_eq_ofNat, toNat_tapWord]

/-- A counter's fill test on its number is the test on its bits (R36). -/
theorem toNat_beq_1023 (x : BitVec 10) : (x.toNat == 1023) = (x == 1023#10) := by
  rw [Bool.eq_iff_iff, beq_iff_eq, beq_iff_eq, toNat_1023]

/-- The bits of STATUS as one number, in a word (R36). -/
theorem setWidth_statusWord (s : Block) :
    (statusWord s).setWidth 32 = BitVec.ofNat 32 (128 * bitNat s.sdone + 64 * bitNat (s.gcnt == 1023) +
      32 * bitNat (s.chipcnt == 1023) + 2 * s.cause.toNat + bitNat s.err) := by
  rw [setWidth_eq_ofNat, toNat_statusWord, prnFull, chipFull, period_eq, toNat_beq_1023, toNat_beq_1023]
  rfl

/-- Bit k of SCAN's answer is RESULTS[k].DET below NSAT and 0 above (R75, R140). -/
theorem getLsbD_detectionBitmap (s : Block) {k : Nat} (hk : k < 32) :
    (detectionBitmap s).getLsbD k = (decide (k < s.tapTable.nsat) && (resultEntry s k).det) := by
  rw [detectionBitmap, BitVec.getLsbD_setWidth, BitVec.getLsbD_ofBoolListLE, List.getD_eq_getElem?_getD,
    List.getElem?_map]
  by_cases hn : k < s.tapTable.nsat
  · rw [List.getElem?_range hn]
    simp [hk, hn]
  · rw [List.getElem?_eq_none (by rw [List.length_range]; omega)]
    simp [hn]

/-! ### RDREG (R148) -/

/-- RDREG of a register that exists answers it and changes nothing. -/
theorem exec_rdreg_of_read {r : BitVec 4} {s : State} {w : Word} (h : readRegister r s.block = some w) :
    exec (.rdreg r) s = .next (afterRead w s) := by
  refine exec_of_ok (i := .rdreg r) (b := s.block) (r := ⟨false, w⟩) ?_
  simp only [blockCommand, blockRdreg, h]
  rfl

theorem exec_rdreg_of_no_register {r : BitVec 4} (h : 11 ≤ r.toNat) (s : State) :
    exec (.rdreg r) s = .next (afterFault 2 s) := by
  have hnone := readRegister_eq_none (decide_eq_false (Nat.not_le.2 h)) s.block
  refine exec_of_takeFault (c := .register) ?_
  simp only [blockCommand, blockRdreg, hnone]

/-! ### What the search of an entry leaves in the registers (R122) -/

/-- OFS after a search: the offset of its detection, or the last offset without one. -/
theorem ofNat_search_offset (sum : Nat → Int) (th : Nat) :
    BitVec.ofNat 10 (search sum th).offset =
      if (detectionOf (search sum th)).det then (detectionOf (search sum th)).offset else 1022 := by
  obtain ⟨-, -, -, -, hlast⟩ := search_spec sum th
  rw [detectionOf_det]
  cases hfound : (search sum th).found with
  | true => rw [detectionOf_of_found hfound]; rfl
  | false => rw [hlast hfound]; rfl

/-- ACC after a search of a whole code holds the sum at OFS. -/
theorem toInt_search_sum (chips : List Sample) {bits : List Bool} (hb : bits.length = 1023) (th : Nat) :
    (BitVec.ofInt 18 (search (scalarSum chips bits) th).sum).toInt =
      scalarSum chips bits (BitVec.ofNat 10 (search (scalarSum chips bits) th).offset).toNat := by
  obtain ⟨hsum, hoffset, -⟩ := search_spec (scalarSum chips bits) th
  rw [toInt_ofInt_of_bound (natAbs_search_sum_le chips hb th), toNat_ofNat_offset hoffset, hsum]

/-! ### SCAN (R140, R141) -/

/-- SCAN completes only by running its loop: without all samples it faults, with them it scans (R140). -/
theorem scanState_of_exec_scan {s t : State} (hcnt : s.chipcnt = 1023) (h : exec .scan s = .next t) :
    scanState .scalar s.block = .ok t.block := by
  rw [exec_eq_serve] at h
  obtain ⟨b, r, hb, rfl⟩ := serve_eq_next.1 h
  rcases blockScan_cases hb with ⟨hshort, -, -⟩ | ⟨-, hscan, -⟩
  · exact absurd (toNat_1023.2 hcnt) (chipcnt_ne_of_not_full hshort)
  · exact hscan

/-- The entry SCAN stores for a pair of the table, in terms of the captured sequence, the threshold and the pair. -/
theorem resultEntry_of_scanState {s t : Block} (h : scanState .scalar s = .ok t) {chips : List Sample}
    (hc : Memory.sequence s.chip 1023 = some chips) {k : Nat} {p : TapPair} (hp : s.tapTable.toList[k]? = some p) :
    resultEntry t k = correlate chips (generate p.tap1 p.tap2) s.thresh.toNat := by
  obtain ⟨chips', _, _, hc', -, -, hentries, -⟩ := scanState_spec h
  obtain rfl : chips = chips' := Option.some.inj (hc.symm.trans hc')
  rw [hentries k, hp]

/-! ### The obligations on the scanner and on housekeeping -/

/-- Settles O42: SCAN's loop stores each entry, and its last entry is what the generator and the correlator hold. -/
theorem scanCorrelatesEveryEntry : Obligations.ScanCorrelatesEveryEntry := by
  refine ⟨decode_encode .scan, fun s chips hshape hlegal hcnt hchips => ?_⟩
  have hseq := sequence_of_chipsAre hshape (toNat_1023.2 hcnt) hchips
  obtain ⟨b, hscan, hblock⟩ :=
    blockScan_of_sequence (chipFull_iff.2 (toNat_1023.2 hcnt)) (tableLegal_of_legalValues hlegal) hseq
  have hframe := scanState_frame hscan
  have htable : b.tapTable = s.tapTable := by rw [hframe]
  obtain ⟨chips', last, r, hseq', hlast, -, -, hsat, htap1, htap2, hg1, hg2, hgcnt, hprn, hrdone, rfl, hacc, hofs,
    hresult⟩ := scanState_spec hscan
  obtain rfl : chips = chips' := Option.some.inj (hseq.symm.trans hseq')
  refine ⟨_, detectionBitmap b, last, _, exec_of_ok (i := .scan) hblock, hlast, rfl,
    fun k p hp => resultEntry_of_scanState hscan hseq hp, fun k hk => ?_, hsat, hresult, ?_, ?_,
    prnIs_of_sequence hprn, ?_⟩
  · rw [reply_block, getLsbD_detectionBitmap b hk, htable]
  · rw [reply_block, hofs, hresult, ofNat_search_offset]
  · rw [reply_block, hacc, hofs, toInt_search_sum chips (length_generate ..)]
  · rw [htap1, htap2, hg1.trans (shiftTimes_period (.inl rfl)), hg2.trans (shiftTimes_period (.inr rfl)), hgcnt,
      hrdone] at hframe
    exact congrArg (reply s · _) hframe

/-- Settles O43: both entries are the correlation of one captured sequence with one code at one threshold. -/
theorem satellitesAreIndependent : Obligations.SatellitesAreIndependent := by
  intro s s' t t' k k' p hchip hthresh hp hp' hcnt hcnt' h h'
  have hscan := scanState_of_exec_scan hcnt h
  have hscan' := scanState_of_exec_scan hcnt' h'
  obtain ⟨chips, _, _, hseq, -⟩ := scanState_spec hscan
  rw [resultEntry_of_scanState hscan hseq hp, resultEntry_of_scanState hscan' (hchip ▸ hseq) hp', hthresh]

/-- Settles O18: NOP's transition leaves the block. -/
theorem nopAnswersZero : Obligations.NopAnswersZero :=
  ⟨decode_encode .nop, fun _ => exec_of_ok (i := .nop) rfl⟩

/-- Settles O19: each register's word as a number; the numbers from 11 up name no register. -/
theorem rdregReadsEveryRegister : Obligations.RdregReadsEveryRegister := by
  refine ⟨fun r => decode_encode (.rdreg r), fun s => ?_⟩
  have answers {r : BitVec 4} {w w' : Word} (h : readRegister r s.block = some w) (hw : w = w') :
      exec (.rdreg r) s = .next (afterRead w' s) := hw ▸ exec_rdreg_of_read h
  exact ⟨answers rfl (setWidth_eq_ofNat _), answers rfl (setWidth_eq_ofNat _), answers rfl (setWidth_tapWord _),
    answers rfl (setWidth_eq_ofNat _), answers rfl (setWidth_eq_ofNat _), answers rfl (setWidth_eq_ofNat _),
    answers rfl (setWidth_eq_ofNat _), answers rfl (signExtend_eq_ofInt _), answers rfl (setWidth_eq_ofNat _),
    answers rfl (setWidth_resultWord ..), answers rfl (setWidth_statusWord _),
    fun r hr => exec_rdreg_of_no_register hr s⟩

/-- Settles O44: RDSAT's check, then the result word of the entry with SDONE. -/
theorem rdsatReadsOneEntry : Obligations.RdsatReadsOneEntry := by
  intro k s
  refine ⟨decode_encode (.rdsat k), fun hk => ?_, fun hk => ?_⟩
  · rw [← setWidth_resultWord]
    exact exec_of_ok (i := .rdsat k) (if_pos hk)
  · exact exec_of_takeFault (c := .satellite) (if_neg (Nat.not_lt.2 hk))

end Sys2Proof.Machine

/-! Faults and the error record (60_exceptions.md): what a faulting command leaves (R153), which cause each command
reports (R154), and that ERR and CAUSE are read by RDREG 10 alone (R155). -/

namespace Sys2Proof.Machine

/-! ### Commands that find CHIP or PRN short (R154) -/

/-- The test of CSUM, CORR and SCAN for missing samples. -/
theorem not_chipFull_iff {s : Block} : (!chipFull s) = true ↔ s.chipcnt ≠ 1023#10 := by
  simp [chipFull, toNat_1023]

/-- The test of CSUM and CORR for missing bits of the code. -/
theorem not_prnFull_iff {s : Block} : (!prnFull s) = true ↔ s.gcnt ≠ 1023#10 := by
  simp [prnFull, toNat_1023]

theorem blockCsum_of_chip_short {o : BitVec 10} {s : Block} (ho : o ≠ 1023) (hchip : s.chipcnt ≠ 1023) :
    blockCsum o s = takeFault .chipShort s :=
  (if_neg (mt toNat_1023.1 ho)).trans (if_pos (not_chipFull_iff.2 hchip))

theorem blockCsum_of_prn_short {o : BitVec 10} {s : Block} (ho : o ≠ 1023) (hchip : s.chipcnt = 1023)
    (hprn : s.gcnt ≠ 1023) : blockCsum o s = takeFault .prnShort s :=
  (if_neg (mt toNat_1023.1 ho)).trans <|
    (if_neg fun h => not_chipFull_iff.1 h hchip).trans (if_pos (not_prnFull_iff.2 hprn))

theorem blockCorr_of_prn_short {s : Block} (hchip : s.chipcnt = 1023) (hprn : s.gcnt ≠ 1023) :
    blockCorr s = takeFault .prnShort s :=
  (if_neg fun h => not_chipFull_iff.1 h hchip).trans (if_pos (not_prnFull_iff.2 hprn))

/-! ### Setting ERR and CAUSE -/

/-- The block with other values in ERR and CAUSE, everything else as it is. -/
def Block.withErrCause (e : Bool) (c : BitVec 4) (s : Block) : Block := { s with err := e, cause := c }

@[simp] theorem withErrCause_tapTable (e : Bool) (c : BitVec 4) (s : Block) :
    (s.withErrCause e c).tapTable = s.tapTable := rfl

@[simp] theorem withErrCause_prn (e : Bool) (c : BitVec 4) (s : Block) : (s.withErrCause e c).prn = s.prn := rfl

@[simp] theorem withErrCause_chip (e : Bool) (c : BitVec 4) (s : Block) : (s.withErrCause e c).chip = s.chip := rfl

@[simp] theorem tapsLegal_withErrCause (e : Bool) (c : BitVec 4) (s : Block) :
    tapsLegal (s.withErrCause e c) = tapsLegal s := rfl

/-- Every register but STATUS is made of other fields (R35). -/
theorem readRegister_withErrCause {r : BitVec 4} (hr : r ≠ 10) (e : Bool) (c : BitVec 4) (s : Block) :
    readRegister r (s.withErrCause e c) = readRegister r s := by
  unfold readRegister
  split
  case h_11 h10 => exact absurd (BitVec.eq_of_toNat_eq h10) hr
  all_goals rfl

/-! ### The block's work does not read ERR and CAUSE, and keeps them -/

theorem generatorSteps_withErrCause (e : Bool) (c : BitVec 4) (n : Nat) (s : Block) :
    generatorSteps n (s.withErrCause e c) = (generatorSteps n s).withErrCause e c := by
  induction n generalizing s with
  | zero => rfl
  | succ n ih => exact ih (generatorStep s)

theorem runGenerator_withErrCause (e : Bool) (c : BitVec 4) (s : Block) :
    runGenerator (s.withErrCause e c) = (runGenerator s).map (Block.withErrCause e c) := by
  unfold runGenerator
  rw [tapsLegal_withErrCause]
  split_ifs
  · exact congrArg Except.ok (generatorSteps_withErrCause e c _ (startGenerator s))
  · rfl

theorem onSequences_withErrCause (e : Bool) (c : BitVec 4) (s : Block) {f f' : List Sample → List Bool → Block}
    (hf : ∀ chips bits, f' chips bits = (f chips bits).withErrCause e c) :
    onSequences (s.withErrCause e c) f' = (onSequences s f).map (Block.withErrCause e c) := by
  unfold onSequences
  rw [withErrCause_chip, withErrCause_prn]
  split
  · exact congrArg Except.ok (hf _ _)
  · rfl

theorem sumAt_withErrCause (st : Strategy) (o : Nat) (e : Bool) (c : BitVec 4) (s : Block) :
    sumAt st o (s.withErrCause e c) = (sumAt st o s).map (Block.withErrCause e c) :=
  onSequences_withErrCause e c s fun _ _ => rfl

theorem correlateState_withErrCause (st : Strategy) (e : Bool) (c : BitVec 4) (s : Block) :
    correlateState st (s.withErrCause e c) = (correlateState st s).map (Block.withErrCause e c) :=
  onSequences_withErrCause e c s fun _ _ => rfl

theorem scanEntry_withErrCause (st : Strategy) (k : Nat) (p : TapPair) (e : Bool) (c : BitVec 4) (s : Block) :
    scanEntry st k p (s.withErrCause e c) = (scanEntry st k p s).map (Block.withErrCause e c) := by
  have hselect : selectEntry k p (s.withErrCause e c) = (selectEntry k p s).withErrCause e c := rfl
  unfold scanEntry
  rw [hselect, runGenerator_withErrCause]
  cases runGenerator (selectEntry k p s) with
  | error f => rfl
  | ok t =>
    simp only [Except.map, correlateState_withErrCause]
    cases correlateState st t <;> rfl

theorem scanFrom_withErrCause (st : Strategy) (e : Bool) (c : BitVec 4) (k : Nat) (ps : List TapPair) (s : Block) :
    scanFrom st k ps (s.withErrCause e c) = (scanFrom st k ps s).map (Block.withErrCause e c) := by
  induction ps generalizing k s with
  | nil => rfl
  | cons p ps ih =>
    rw [scanFrom, scanFrom, scanEntry_withErrCause]
    cases scanEntry st k p s with
    | error f => rfl
    | ok t => exact ih (k + 1) t

theorem scanState_withErrCause (st : Strategy) (e : Bool) (c : BitVec 4) (s : Block) :
    scanState st (s.withErrCause e c) = (scanState st s).map (Block.withErrCause e c) := by
  unfold scanState
  rw [withErrCause_tapTable, scanFrom_withErrCause]
  split_ifs
  · cases scanFrom st 0 s.tapTable.toList s <;> rfl
  · rfl

/-! ### Transitions that agree but for ERR and CAUSE (R155) -/

/-- Where the first transition answers, the second one does, with the same response and the same state but for ERR and
CAUSE. -/
def SameButErrCause (x y : Transition) : Prop :=
  ∀ t r, x = .ok (t, r) → ∃ e c, y = .ok (t.withErrCause e c, r)

theorem SameButErrCause.complete (e : Bool) (c : BitVec 4) (d : Word) (s : Block) :
    SameButErrCause (complete d s) (complete d (s.withErrCause e c)) := by
  intro t r h
  obtain ⟨rfl, rfl⟩ := complete_eq_ok.1 h
  exact ⟨e, c, rfl⟩

theorem SameButErrCause.stop (f : Fault) (y : Transition) : SameButErrCause (.error f) y := nofun

/-- Both runs take the fault; what each records depends on its own ERR (R153). -/
theorem SameButErrCause.takeFault (e : Bool) (c : BitVec 4) (k : Cause) (s : Block) :
    SameButErrCause (takeFault k s) (takeFault k (s.withErrCause e c)) := by
  intro t r h
  obtain ⟨rfl, rfl⟩ := takeFault_eq_ok.1 h
  refine ⟨true, if e then c else k.code, takeFault_eq_ok.2 ⟨?_, rfl⟩⟩
  rw [recordCause_eq, recordCause_eq]
  rfl

theorem SameButErrCause.finish {e : Bool} {c : BitVec 4} {d : Block → Word} {x y : Except Fault Block}
    (hd : ∀ t, d (t.withErrCause e c) = d t) (hy : y = x.map (Block.withErrCause e c)) :
    SameButErrCause (finish d x) (finish d y) := by
  intro t r h
  obtain ⟨rfl, rfl⟩ := finish_eq_ok.1 h
  exact ⟨e, c, finish_eq_ok.2 ⟨hy, congrArg _ (hd t).symm⟩⟩

/-- A check of a command: both runs pass it or both fail it. -/
theorem SameButErrCause.check {p : Prop} [Decidable p] {x x' y y' : Transition} (hx : SameButErrCause x x')
    (hy : SameButErrCause y y') : SameButErrCause (if p then x else y) (if p then x' else y') := by
  split_ifs
  exacts [hx, hy]

/-- Every command but RDREG 10 makes the same transition whatever ERR and CAUSE are, check by check. -/
theorem blockCommand_withErrCause {i : Instr} (hi : i ≠ .rdreg 10) (e : Bool) (c : BitVec 4) (s : Block) :
    SameButErrCause (blockCommand i s) (blockCommand i (s.withErrCause e c)) := by
  have done (d : Word) (t : Block) := SameButErrCause.complete e c d t
  have faulted (k : Cause) := SameButErrCause.takeFault e c k s
  cases i with
  | nop => exact done 0 s
  | rdreg r =>
    have hr : r ≠ 10 := fun h => hi (congrArg _ h)
    simp only [blockCommand, blockRdreg, readRegister_withErrCause hr]
    split
    exacts [done _ s, faulted _]
  | settap t1 t2 => exact .check (done 0 (loadTaps ⟨t1, t2⟩ s)) (faulted .tap)
  | selsat k =>
    simp only [blockCommand, blockSelsat, withErrCause_tapTable]
    split
    exacts [done 0 (selectEntry k.toNat _ s), faulted _]
  | ginit => exact done 0 (startGenerator s)
  | gstep => exact .check (faulted .genOverrun) (.check (done _ (generatorStep s)) (.stop _ _))
  | gen => exact .finish (fun _ => rfl) (runGenerator_withErrCause e c s)
  | rdprn enc j =>
    refine .check (faulted .illegal) (.check (faulted .index) ?_)
    rw [withErrCause_prn]
    split
    exacts [done _ s, .stop _ _]
  | clrchip => exact done 0 (clearResults { s with chipcnt := 0, chip := [] })
  | ldchip v =>
    exact .check (faulted .chipFull)
      (done 0 (clearResults { s with chip := Memory.write s.chip s.chipcnt.toNat v, chipcnt := s.chipcnt + 1 }))
  | rdchip j =>
    refine .check (faulted .index) ?_
    rw [withErrCause_chip]
    split
    exacts [done _ s, .stop _ _]
  | setthr v => exact done 0 (clearResults { s with thresh := v })
  | csum o =>
    exact .check (faulted .index) (.check (faulted .chipShort) (.check (faulted .prnShort)
      (.finish (fun _ => rfl) (sumAt_withErrCause _ _ e c s))))
  | corr =>
    exact .check (faulted .chipShort) (.check (faulted .prnShort)
      (.finish (fun _ => rfl) (correlateState_withErrCause _ e c s)))
  | scan => exact .check (faulted .chipShort) (.finish (fun _ => rfl) (scanState_withErrCause _ e c s))
  | rdsat k => exact .check (done _ s) (faulted .satellite)

/-! ### The obligations on faults -/

/-- Settles O13: the fault's cause gives rdata and, through R153, the state after. -/
theorem faultingCommandChangesNothingElse : Obligations.FaultingCommandChangesNothingElse := by
  intro i s t d h hr
  have hb := blockCommand_of_exec h hr
  obtain ⟨c, ht, rfl⟩ := recordCause_and_code_of_fault hb
  rw [ht] at hb
  obtain ⟨hpos, hle⟩ := code_bounds c
  refine ⟨c.code, hpos, hle, rfl, Host.Outcome.next.inj (h.symm.trans ?_)⟩
  rw [exec_of_ok hb, reply_recordCause]

/-- Settles O14: the faulting clauses of each generator command's own law. -/
theorem generatorFaultOrder : Obligations.GeneratorFaultOrder := by
  refine ⟨fun t1 t2 s => ?_, fun k s => ?_, fun s => ?_, fun i s => ?_, fun enc i s => ?_⟩
  · obtain ⟨-, -, hfault⟩ := settapStartsGenerator t1 t2 s
    exact hfault
  · obtain ⟨-, -, hfault⟩ := selsatLoadsTableEntry k s
    exact hfault
  · obtain ⟨-, hstep⟩ := gstepEmitsAndAdvances
    obtain ⟨hoverrun, -⟩ := hstep s
    exact hoverrun
  · obtain ⟨-, hillegal, -⟩ := rdprnViewsOneBit i s
    exact hillegal
  · obtain ⟨-, -, hindex, -⟩ := rdprnViewsOneBit i s
    exact hindex enc

/-- Settles O15: the faulting clauses of the single-element commands' own laws, and the checks of CSUM, CORR and SCAN
in their order. -/
theorem correlatorFaultOrder : Obligations.CorrelatorFaultOrder := by
  refine ⟨fun v s => ?_, fun i s => ?_, fun s => exec_of_takeFault (c := .index) rfl, fun o s ho hchip => ?_,
    fun o s ho hchip hprn => ?_, fun s hchip => ?_, fun s hchip hprn => ?_, fun s hchip => ?_, fun k s => ?_,
    fun r s hr => exec_rdreg_of_no_register hr s⟩
  · obtain ⟨-, hfull, -⟩ := ldchipAppendsOneSample v s
    exact hfull
  · obtain ⟨-, -, hindex⟩ := rdchipReadsOneSample i s
    exact hindex
  · exact exec_of_takeFault (i := .csum o) (blockCsum_of_chip_short ho hchip)
  · exact exec_of_takeFault (i := .csum o) (blockCsum_of_prn_short ho hchip hprn)
  · exact exec_of_takeFault (i := .corr) (c := .chipShort) (if_pos (not_chipFull_iff.2 hchip))
  · exact exec_of_takeFault (i := .corr) (blockCorr_of_prn_short hchip hprn)
  · exact exec_of_takeFault (i := .scan) (c := .chipShort) (if_pos (not_chipFull_iff.2 hchip))
  · obtain ⟨-, -, hsatellite⟩ := rdsatReadsOneEntry k s
    exact hsatellite

/-- Settles O17: the two runs' transitions agree, so the host is given the same response. -/
theorem errAndCauseSteerNothing : Obligations.ErrAndCauseSteerNothing := by
  intro i s t e c hi h
  rw [exec_eq_serve] at h
  obtain ⟨b, r, hb, rfl⟩ := serve_eq_next.1 h
  obtain ⟨e', c', hb'⟩ := blockCommand_withErrCause hi e c s.block b r hb
  exact ⟨_, exec_of_ok hb', rfl⟩

end Sys2Proof.Machine

/-! Reset and the idle block (70_reset_and_hazards.md): what a step does when no command word is at the port, and that
ERR and CAUSE, once a fault is recorded, stay until reset (R173). -/

namespace Sys2Proof.Machine

/-! ### A step without a command word -/

/-- The idle block stays as it is (R174, log 3). -/
theorem step_idle {s : State} (h : s.inputs = []) : step s = .next s := by
  rw [step, h]

/-- Reset between commands (R173). -/
theorem step_reset {s : State} {rest : List HostEvent} (h : s.inputs = .reset :: rest) :
    step s = .next (resetBlock { s with inputs := rest }) := by
  rw [step, h]
  rfl

/-- Reset during a command (R170). -/
theorem step_resetDuringCommand {s : State} {rest : List HostEvent} (h : s.inputs = .resetDuringCommand :: rest) :
    step s = .next (interruptByReset { s with inputs := rest }) := by
  rw [step, h]
  rfl

/-! ### The record of the first fault stays (R153, R155) -/

/-- With ERR = 1 a further fault records nothing. -/
theorem recordCause_of_err {s : Block} (c : Cause) (h : s.err = true) : recordCause c s = s := by
  rw [recordCause, if_pos h]

/-- A command writes ERR and CAUSE only by taking a fault. -/
theorem err_cause_kept_or_recordCause_of_command {i : Instr} {s t : Block} {a : Response}
    (h : blockCommand i s = .ok (t, a)) : (t.err = s.err ∧ t.cause = s.cause) ∨ ∃ c, t = recordCause c s := by
  cases i with
  | nop | rdreg | rdprn | rdchip | rdsat =>
    rcases same_or_recordCause_of_reader (by simp) h with rfl | hfault
    exacts [.inl ⟨rfl, rfl⟩, .inr hfault]
  | settap t1 t2 =>
    rcases blockSettap_cases h with ⟨-, rfl, -⟩ | ⟨-, ht, -⟩
    exacts [.inl ⟨rfl, rfl⟩, .inr ⟨_, ht⟩]
  | selsat k =>
    rcases blockSelsat_cases h with ⟨_, -, rfl, -⟩ | ⟨-, ht, -⟩
    exacts [.inl ⟨rfl, rfl⟩, .inr ⟨_, ht⟩]
  | ginit =>
    rw [(blockGinit_cases h).1]
    exact .inl ⟨rfl, rfl⟩
  | gstep =>
    rcases blockGstep_cases h with ⟨-, -, rfl, -⟩ | ⟨-, ht, -⟩
    exacts [.inl ⟨rfl, rfl⟩, .inr ⟨_, ht⟩]
  | gen =>
    rw [(runGenerator_spec (blockGen_cases h).1).1]
    exact .inl ⟨rfl, rfl⟩
  | clrchip =>
    rw [(blockClrchip_cases h).1]
    exact .inl ⟨rfl, rfl⟩
  | ldchip v =>
    rcases blockLdchip_cases h with ⟨-, rfl, -⟩ | ⟨-, ht, -⟩
    exacts [.inl ⟨rfl, rfl⟩, .inr ⟨_, ht⟩]
  | setthr v =>
    rw [(blockSetthr_cases h).1]
    exact .inl ⟨rfl, rfl⟩
  | csum o =>
    rcases blockCsum_cases h with ⟨c, ht, -⟩ | ⟨-, -, -, _, _, -, -, rfl, -⟩
    exacts [.inr ⟨c, ht⟩, .inl ⟨rfl, rfl⟩]
  | corr =>
    rcases blockCorr_cases h with ⟨c, ht, -⟩ | ⟨-, -, _, _, _, -, -, -, rfl, -⟩
    exacts [.inr ⟨c, ht⟩, .inl ⟨rfl, rfl⟩]
  | scan =>
    rcases blockScan_cases h with ⟨-, ht, -⟩ | ⟨-, hscan, -⟩
    · exact .inr ⟨_, ht⟩
    · rw [scanState_frame hscan]
      exact .inl ⟨rfl, rfl⟩

/-- The same of the port: a word that is no command takes a fault too (R72). -/
theorem err_cause_kept_or_recordCause_of_port {w : Word} {s t : Block} {a : Response} (h : port w s = .ok (t, a)) :
    (t.err = s.err ∧ t.cause = s.cause) ∨ ∃ c, t = recordCause c s := by
  unfold port at h
  split at h
  · exact err_cause_kept_or_recordCause_of_command h
  · exact .inr ⟨_, (takeFault_eq_ok.1 h).1⟩

/-- From ERR = 1 no word at the port changes ERR or CAUSE (R155). -/
theorem err_cause_kept_of_port {w : Word} {s t : Block} {a : Response} (h : port w s = .ok (t, a))
    (herr : s.err = true) : t.err = s.err ∧ t.cause = s.cause := by
  rcases err_cause_kept_or_recordCause_of_port h with hkept | ⟨c, rfl⟩
  · exact hkept
  · rw [recordCause_of_err c herr]
    exact ⟨rfl, rfl⟩

/-! ### The obligations on reset and the idle block -/

/-- Settles O11: the two resets by their step laws; of the other steps, the idle one stays and the port's keeps the
record of a fault. -/
theorem onlyResetClearsErr : Obligations.OnlyResetClearsErr := by
  refine ⟨?_, fun s t h herr hnoreset => ?_⟩
  · rintro s rest t rfl
    exact ⟨step_reset, fun hs => ⟨_, step_resetDuringCommand hs⟩⟩
  · rcases step_cases h with ⟨-, rfl⟩ | ⟨w, rest, b, r, -, hport, rfl⟩ | ⟨rest, hs, -⟩ | ⟨rest, hs, -⟩
    · exact ⟨herr, rfl⟩
    · obtain ⟨hkeptErr, hkeptCause⟩ := err_cause_kept_of_port hport herr
      exact ⟨hkeptErr.trans herr, hkeptCause⟩
    · exact absurd hs (hnoreset rest).1
    · exact absurd hs (hnoreset rest).2

/-- Settles O9: the step of the idle block, and the state after reset with nothing queued and nothing answered. -/
theorem idleBlockStays : Obligations.IdleBlockStays :=
  ⟨fun _ => step_idle, fun _ => ⟨rfl, rfl⟩⟩

end Sys2Proof.Machine
